-- ==== Sys2Proof/Word.lean ====
section
/-! DEFINITION. The three widths of the hardware (00_scope.md R4): a byte of the image, a 16-bit memory cell or raw
instruction word, and a 15-bit value. -/

namespace Sys2Proof

/-- A byte of the program image, the only place where the hardware has bytes (20_memory.md R53). -/
abbrev Byte := BitVec 8

/-- A memory cell, a raw instruction word, a stack entry or the program counter: CELL_BITS, PC_BITS and
STACK_ENTRY_BITS are 16 (00_scope.md R4, R5). -/
abbrev Word := BitVec 16

/-- A value: a register's content, whatever Resolve returns, a character code. WORD_BITS is 15, so a value is
0 to 32767 (00_scope.md R4). -/
abbrev Value := BitVec 15

end Sys2Proof
end

