-- ==== Sys2Proof/Config.lean ====
section
/-! DEFINITION. The parameters of the hardware (00_scope.md R4 and R6). No value of this hardware is left free by its
spec, so no opaque constant stands here. -/

namespace Sys2Proof

/-- MODULUS of add and mul: 2 to the 15th (00_scope.md R4). -/
def Config.modulus : Nat := 32768

/-- MEM_WORDS: cells at addresses 0 to 32767 (00_scope.md R4, 10_state.md R24). -/
def Config.memWords : Nat := 32768

/-- REG_BASE: the operand word that names x[0] (00_scope.md R4, 10_state.md R21). -/
def Config.regBase : Nat := 32768

/-- REG_TOP: the operand word that names x[7] (00_scope.md R4). -/
def Config.regTop : Nat := 32775

/-- The longest image the loader accepts, in bytes: two for each cell (70_reset_and_hazards.md R241, R243). -/
def Config.maxImageBytes : Nat := 65536

/-- STACK_DEPTH: none is the spec's `unbounded`, the value for this hardware; some N is a finite implementation
(00_scope.md R6; log entry 7). -/
def Config.stackDepth : Option Nat := none

end Sys2Proof
end

