-- ==== Sys2Proof/Syntax.lean ====
section
/-! DEFINITION. Operands and instructions: one constructor of Instr for each of the 22 rows of spec/opcode_table.json
(30_encoding.md R80). -/

namespace Sys2Proof

/-- A raw operand word by its class (30_encoding.md R75). All three classes are operands of an instruction: an invalid
word, or a literal where a destination stands, is fatal only when the instruction uses it (R82). -/
inductive Operand where
  /-- A literal, 0 to 32767, used as itself. -/
  | lit (v : Value)
  /-- A register reference, word 32768 + r. -/
  | reg (r : Fin 8)
  /-- A word of the invalid class, 32776 to 65535. -/
  | invalid (w : Word)
deriving DecidableEq, Repr

/-- The closed instruction set (00_scope.md R2). The operands are named a, b, c as in the opcode table. The constructor of
the instruction `in` is written `in_`, because `in` is a word of Lean's own. -/
inductive Instr where
  | halt
  | set (a b : Operand)
  | push (a : Operand)
  | pop (a : Operand)
  | eq (a b c : Operand)
  | gt (a b c : Operand)
  | jmp (a : Operand)
  | jt (a b : Operand)
  | jf (a b : Operand)
  | add (a b c : Operand)
  | mul (a b c : Operand)
  | mod (a b c : Operand)
  | and (a b c : Operand)
  | or (a b c : Operand)
  | not (a b : Operand)
  | rmem (a b : Operand)
  | wmem (a b : Operand)
  | call (a : Operand)
  | ret
  | out (a : Operand)
  | in_ (a : Operand)
  | noop
deriving DecidableEq, Repr

/-- The operands of an instruction in the order a, b, c (30_encoding.md R70). -/
def Instr.operands : Instr → List Operand
  | .halt | .ret | .noop => []
  | .push a | .pop a | .jmp a | .call a | .out a | .in_ a => [a]
  | .set a b | .jt a b | .jf a b | .not a b | .rmem a b | .wmem a b => [a, b]
  | .eq a b c | .gt a b c | .add a b c | .mul a b c | .mod a b c | .and a b c | .or a b c => [a, b, c]

end Sys2Proof
end

