-- ==== Sys2Proof/WellFormed.lean ====
section
/-! DEFINITION. Which instructions are the reading of some words: an operand of the invalid class carries a word of that
class (30_encoding.md R75). Nothing else can be wrong with an instruction as syntax: a literal in the place of a destination
is a legal encoding that faults when it is executed (R78, R82). -/

namespace Sys2Proof

/-- An invalid operand holds a word of 32776 to 65535 (30_encoding.md R75). -/
def Operand.wf : Operand → Bool
  | .lit _ => true
  | .reg _ => true
  | .invalid w => decide (32776 ≤ w.toNat)

/-- Every operand of the instruction is well formed. -/
def Instr.wf (i : Instr) : Bool := i.operands.all Operand.wf

end Sys2Proof
end

