-- ==== Sys2Proof/Decode.lean ====
section
/-! DEFINITION. From words to instructions and back (30_encoding.md R70 to R84), and the byte order of the image
(20_memory.md R53). Decoding comes first, the encoder after it, the assembly spelling last. -/

namespace Sys2Proof

/-! ### Bytes and words (20_memory.md R53, 70_reset_and_hazards.md R241) -/

/-- A 16-bit word from its two image bytes, the low one first. -/
def wordOfBytes (lo hi : Byte) : Word := BitVec.ofNat 16 (lo.toNat + 256 * hi.toNat)

/-- Bits 7 to 0 of a word: the byte at the even image offset. -/
def lowByte (w : Word) : Byte := BitVec.ofNat 8 w.toNat

/-- Bits 15 to 8 of a word: the byte at the odd image offset. -/
def highByte (w : Word) : Byte := BitVec.ofNat 8 (w.toNat / 256)

/-- The words of a byte sequence in order. A last byte without a partner makes no word. -/
def wordsOfBytes : List Byte → List Word
  | lo :: hi :: rest => wordOfBytes lo hi :: wordsOfBytes rest
  | _ => []

/-- The bytes of a word sequence in order. -/
def bytesOfWords : List Word → List Byte
  | [] => []
  | w :: rest => lowByte w :: highByte w :: bytesOfWords rest

/-- A 15-bit value in a 16-bit place (00_scope.md section 5.1, zext). -/
def widen (v : Value) : Word := BitVec.ofNat 16 v.toNat

/-! ### Operand words -/

/-- The class of a raw operand word: literal, register reference or invalid (30_encoding.md R75). -/
def Operand.ofWord (w : Word) : Operand :=
  if w.toNat < Config.regBase then .lit (BitVec.ofNat 15 w.toNat)
  else if w.toNat ≤ Config.regTop then .reg (Fin.ofNat 8 w.toNat)
  else .invalid w

/-! ### The opcode map -/

/-- What an opcode word announces: an instruction that still lacks 0, 1, 2 or 3 operands (30_encoding.md R70, R71). -/
inductive Shape where
  | zero (i : Instr)
  | one (f : Operand → Instr)
  | two (f : Operand → Operand → Instr)
  | three (f : Operand → Operand → Operand → Instr)

/-- The complete opcode map (30_encoding.md R80). The whole 16-bit word is compared with 0 to 21 and is never read as a
register (R72); any other word is unknown (R81). -/
def shapeOf (op : Word) : Option Shape :=
  match op.toNat with
  | 0 => some (.zero .halt)
  | 1 => some (.two .set)
  | 2 => some (.one .push)
  | 3 => some (.one .pop)
  | 4 => some (.three .eq)
  | 5 => some (.three .gt)
  | 6 => some (.one .jmp)
  | 7 => some (.two .jt)
  | 8 => some (.two .jf)
  | 9 => some (.three .add)
  | 10 => some (.three .mul)
  | 11 => some (.three .mod)
  | 12 => some (.three .and)
  | 13 => some (.three .or)
  | 14 => some (.two .not)
  | 15 => some (.two .rmem)
  | 16 => some (.two .wmem)
  | 17 => some (.one .call)
  | 18 => some (.zero .ret)
  | 19 => some (.one .out)
  | 20 => some (.one .in_)
  | 21 => some (.zero .noop)
  | _ => none

/-- Why some words are no instruction. -/
inductive DecodeError where
  /-- The opcode word is 22 to 65535 (30_encoding.md R81). -/
  | unknownOpcode (op : Word)
  /-- The words end before the instruction does. -/
  | outOfWords
deriving DecidableEq, Repr

/-- The instruction at the head of a word sequence, and the words after it. The opcode word alone fixes the length
(30_encoding.md R84); operand words are classified and never refused (R82). -/
def decode : List Word → Except DecodeError (Instr × List Word)
  | [] => .error .outOfWords
  | op :: ws =>
    match shapeOf op with
    | none => .error (.unknownOpcode op)
    | some (.zero i) => .ok (i, ws)
    | some (.one f) =>
      match ws with
      | a :: rest => .ok (f (.ofWord a), rest)
      | _ => .error .outOfWords
    | some (.two f) =>
      match ws with
      | a :: b :: rest => .ok (f (.ofWord a) (.ofWord b), rest)
      | _ => .error .outOfWords
    | some (.three f) =>
      match ws with
      | a :: b :: c :: rest => .ok (f (.ofWord a) (.ofWord b) (.ofWord c), rest)
      | _ => .error .outOfWords

/-- The instruction at the head of a byte sequence laid out as the image is (20_memory.md R53), and the words after it.
Total on any bytes. -/
def decodeBytes (bs : List Byte) : Except DecodeError (Instr × List Word) := decode (wordsOfBytes bs)

/-! ### The encoder -/

/-- The word that stands for an operand (30_encoding.md R75). -/
def Operand.word : Operand → Word
  | .lit v => widen v
  | .reg r => BitVec.ofNat 16 (Config.regBase + r.val)
  | .invalid w => w

/-- The opcode column of the table (30_encoding.md R80). -/
def Instr.opcode : Instr → Word
  | .halt => 0
  | .set _ _ => 1
  | .push _ => 2
  | .pop _ => 3
  | .eq _ _ _ => 4
  | .gt _ _ _ => 5
  | .jmp _ => 6
  | .jt _ _ => 7
  | .jf _ _ => 8
  | .add _ _ _ => 9
  | .mul _ _ _ => 10
  | .mod _ _ _ => 11
  | .and _ _ _ => 12
  | .or _ _ _ => 13
  | .not _ _ => 14
  | .rmem _ _ => 15
  | .wmem _ _ => 16
  | .call _ => 17
  | .ret => 18
  | .out _ => 19
  | .in_ _ => 20
  | .noop => 21

/-- The words of an instruction: opcode, then operands a, b, c (30_encoding.md R70). -/
def encode (i : Instr) : List Word := i.opcode :: i.operands.map Operand.word

/-- Length in cells: 1 + arity (30_encoding.md R84). -/
def Instr.length (i : Instr) : Nat := 1 + i.operands.length

/-! ### A row of the opcode table as the host numbers it -/

/-- The four words of an instruction given as one number, bit 0 being bit 0 of the first word; bits from nbits up
are 0. -/
def tableWords (nbits w : Nat) : List Word :=
  let v := w % 2 ^ nbits
  [BitVec.ofNat 16 v, BitVec.ofNat 16 (v / 2 ^ 16), BitVec.ofNat 16 (v / 2 ^ 32), BitVec.ofNat 16 (v / 2 ^ 48)]

/-- The instruction the decoder reads from such a number, its words laid out as the image's bytes. -/
def decodeTableWord (nbits w : Nat) : Option Instr :=
  match decodeBytes (bytesOfWords (tableWords nbits w)) with
  | .ok (i, _) => some i
  | .error _ => none

/-! ### Assembly spelling -/

/-- A literal or an invalid word in decimal, a register as `$i` (30_encoding.md R91, R92). -/
def Operand.spelling : Operand → String
  | .lit v => toString v.toNat
  | .reg r => "$" ++ toString r.val
  | .invalid w => toString w.toNat

/-- The mnemonic column of the table (30_encoding.md R80). -/
def Instr.mnemonic : Instr → String
  | .halt => "halt"
  | .set _ _ => "set"
  | .push _ => "push"
  | .pop _ => "pop"
  | .eq _ _ _ => "eq"
  | .gt _ _ _ => "gt"
  | .jmp _ => "jmp"
  | .jt _ _ => "jt"
  | .jf _ _ => "jf"
  | .add _ _ _ => "add"
  | .mul _ _ _ => "mul"
  | .mod _ _ _ => "mod"
  | .and _ _ _ => "and"
  | .or _ _ _ => "or"
  | .not _ _ => "not"
  | .rmem _ _ => "rmem"
  | .wmem _ _ => "wmem"
  | .call _ => "call"
  | .ret => "ret"
  | .out _ => "out"
  | .in_ _ => "in"
  | .noop => "noop"

/-- The mnemonic, then the operands, separated by single spaces (30_encoding.md R90). -/
def Instr.spelling (i : Instr) : String := String.intercalate " " (i.mnemonic :: i.operands.map Operand.spelling)

end Sys2Proof
end

