-- ==== Sys2Proof/Machine/State.lean ====
section
/-! DEFINITION. The state of the machine (10_state.md): the six items mem, x, pc, stack, pending, status, the event
sequences of the output ports, and the host's answers on the input port. -/

namespace Sys2Proof.Machine

/-- The spec's fatal errors, the only exceptions of the hardware (60_exceptions.md R201). They are causes of the status
`Faulted`, which a NEXT state records (log entry 4): no step of this machine answers Host.Outcome.fault with one.
So none of them hides an effect, and each is safe. -/
inductive Fault where
  /-- Code 1. Raised by the load of a malformed image, never by an instruction (R207). Safe. -/
  | loadError
  /-- Code 2. Raised by Resolve on a word of 32776 or more (R202). Safe. -/
  | invalidAddress
  /-- Code 3. Raised by Store on a destination that is no register reference (R203). Safe. -/
  | invalidRegister
  /-- Code 4. Raised by Pop on the empty stack (R205). Safe. -/
  | stackUnderflow
  /-- Code 5. Raised by the cycle on an opcode word of 22 or more (R204). Safe. -/
  | unknownOpcode
  /-- Code 6. Raised by mod with a zero divisor (R206). Safe. -/
  | divideByZero
  /-- Code 7. Raised by Fetch with the pc beyond the last cell (R208). Safe. -/
  | fetchOutOfRange
  /-- Code 8. Raised by TakeChar when the buffer is empty and the host has closed the input (R209). Safe. -/
  | inputExhausted
  /-- Code 9. Raised by Push on a full stack, only with a finite STACK_DEPTH, so never by this hardware (R210). Safe. -/
  | stackOverflow
deriving DecidableEq, Repr

/-- The reasons for which an instruction would have no meaning. Every instruction of this hardware has one, so no step
answers a refusal. -/
inductive Refusal where
  /-- An arm of exec whose instruction has no meaning yet. No arm is left so. Safe. -/
  | notModelled (mnemonic : String)
deriving DecidableEq, Repr

/-- Run status (10_state.md R30). The info is the number the cause records, 0 where it records none (60_exceptions.md
R201). -/
inductive Status where
  | running
  | halted
  | faulted (cause : Fault) (info : Word)
deriving DecidableEq, Repr

/-- One event of the DIAG port: the pc and the eight registers (10_state.md R35, 60_exceptions.md R212). -/
structure CoreDump where
  pc : Word
  regs : Vector Value 8
deriving DecidableEq, Repr

/-- The host's answer to a request for a line (47_out_in.md R184): a line of codes without its terminator (10_state.md
R34), nothing yet, or the input closed. -/
inductive HostAnswer where
  | line (codes : List Value)
  | nothingYet
  | closed
deriving DecidableEq, Repr

/-- Memory by the byte offsets of the image (20_memory.md R53; log entry 1): cell a is byte 2a (bits 7 to 0) and
byte 2a + 1 (bits 15 to 8). An offset that is not listed holds 0, the zero fill of reset (70_reset_and_hazards.md R242). -/
abbrev Memory := List Host.Cell

/-- Offsets rise strictly from `lo` on, lie below 65536, and list no zero. -/
def Memory.wfFrom : Nat → Memory → Bool
  | _, [] => true
  | lo, (a, b) :: rest =>
    decide (lo ≤ a) && decide (a < Config.maxImageBytes) && decide (b ≠ 0) && Memory.wfFrom (a + 1) rest

/-- The canonical form of a memory: equal contents are equal lists. -/
def Memory.wf (m : Memory) : Bool := Memory.wfFrom 0 m

/-- The complete state (10_state.md sections 1 to 6, R33 to R35). -/
structure State where
  /-- The memory (R24). -/
  mem : Memory
  /-- The registers x[0] to x[7] (R20). -/
  regs : Vector Value 8
  /-- The program counter, 0 to 32768 (R22, R23). -/
  pc : Word
  /-- The stack, its top the last element (R26, R27). -/
  stack : List Word
  /-- The input line buffer, the next code its first element (R28). -/
  pending : List Value
  /-- The run status, which the TERM port shows (R30, R36). -/
  status : Status
  /-- The events of the OUT port so far (R33). -/
  outStream : List Value
  /-- The events of the DIAG port so far (R35). -/
  diagStream : List CoreDump
  /-- What the host will answer to the line requests still to come (R34). Not the machine's own state: log entry 2. -/
  inPort : List HostAnswer
deriving DecidableEq, Repr

/-- The state right after reset with no image byte given (10_state.md R39). The spec's own value for every field but
`inPort`, which is the model's (log entry 2). -/
def State.reset : State where
  mem := []
  regs := Vector.replicate 8 0
  pc := 0
  stack := []
  pending := []
  status := .running
  outStream := []
  diagStream := []
  inPort := []

end Sys2Proof.Machine
end

