-- ==== Sys2Proof/Machine/Ops.lean ====
section
/-! DEFINITION. The primitives of 00_scope.md section 5.3 over memory, registers, stack and ports, and the one operation
that takes an exception. There is no return from an exception to stand beside it (60_exceptions.md R215). -/

namespace Sys2Proof.Machine

/-! ### Memory -/

/-- The byte at an image offset; 0 where none is listed (70_reset_and_hazards.md R242). -/
def Memory.readByte : Memory → Nat → Byte
  | [], _ => 0
  | (a, b) :: rest, i => if i = a then b else Memory.readByte rest i

/-- Lists a byte before the first offset above its own. -/
def Memory.insertByte : Memory → Nat → Byte → Memory
  | [], i, v => [(i, v)]
  | (a, b) :: rest, i, v => if i < a then (i, v) :: (a, b) :: rest else (a, b) :: Memory.insertByte rest i v

/-- Sets the byte at an offset and no other; a zero is not listed. -/
def Memory.writeByte (m : Memory) (i : Nat) (v : Byte) : Memory :=
  let cleared := m.filter fun c => c.1 ≠ i
  if v = 0 then cleared else Memory.insertByte cleared i v

/-- MemRead(a, 1): the 16-bit content of cell a (20_memory.md R50). -/
def Memory.readCell (m : Memory) (a : Nat) : Word := wordOfBytes (m.readByte (2 * a)) (m.readByte (2 * a + 1))

/-- MemWrite(a, 1, w): sets cell a (20_memory.md R51). -/
def Memory.writeCell (m : Memory) (a : Nat) (w : Word) : Memory :=
  (m.writeByte (2 * a) (lowByte w)).writeByte (2 * a + 1) (highByte w)

/-- The contents an image gives memory from an offset on (70_reset_and_hazards.md R241). -/
def Memory.ofBytes : Nat → List Byte → Memory
  | _, [] => []
  | i, b :: rest => if b = 0 then Memory.ofBytes (i + 1) rest else (i, b) :: Memory.ofBytes (i + 1) rest

/-! ### Registers and program counter -/

/-- `x[r]` (10_state.md R20). -/
def State.getReg (s : State) (r : Fin 8) : Value := s.regs[r]

/-- `x[r] <- v` (10_state.md R20). -/
def State.setReg (s : State) (r : Fin 8) (v : Value) : State := { s with regs := s.regs.set r v }

/-- The pc after the n words of an instruction have been fetched (30_encoding.md R73). -/
def State.past (s : State) (n : Nat) : State := { s with pc := s.pc + BitVec.ofNat 16 n }

/-- `pc <- t` (10_state.md R22). -/
def State.jump (s : State) (t : Word) : State := { s with pc := t }

/-! ### The end of a run -/

/-- CoreDump(): one event on the DIAG port (60_exceptions.md R212). -/
def coreDump (s : State) : State := { s with diagStream := s.diagStream ++ [⟨s.pc, s.regs⟩] }

/-- Taking an exception: `raise F(info)` dumps and records the fault; no pc, stack or register changes (60_exceptions.md
R200). -/
def raise (cause : Fault) (info : Word) (s : State) : State :=
  { coreDump s with status := .faulted cause info }

/-- HaltMachine(): normal termination (60_exceptions.md R213). -/
def haltMachine (s : State) : State := { coreDump s with status := .halted }

/-! ### Primitives in sequence -/

/-- What a primitive answers: a value and the state after it, or the end of the run in a state. -/
inductive Res (α : Type) where
  | ok (v : α) (s : State)
  | ended (s : State)
deriving DecidableEq, Repr

/-- The next primitive runs only where the one before it did not end the run (60_exceptions.md R200, R211). -/
def Res.andThen {α β : Type} : Res α → (α → State → Res β) → Res β
  | .ok v s, k => k v s
  | .ended s, _ => .ended s

/-- The state a whole action leaves. An ended run is a state too (log entry 4). -/
def finish : Res Unit → Host.Outcome State Fault Refusal
  | .ok _ s => .next s
  | .ended s => .next s

/-! ### Stack (10_state.md R27) -/

/-- Push(v) with a given STACK_DEPTH: a full stack is the fault StackOverflow, before anything changes (60_exceptions.md
R210). -/
def push (depth : Option Nat) (v : Word) (s : State) : Res Unit :=
  if some s.stack.length = depth then .ended (raise .stackOverflow 0 s)
  else .ok () { s with stack := s.stack ++ [v] }

/-- Pop(): the last element, or the fault StackUnderflow. -/
def pop (s : State) : Res Word :=
  match s.stack.getLast? with
  | none => .ended (raise .stackUnderflow 0 s)
  | some v => .ok v { s with stack := s.stack.dropLast }

/-! ### Ports -/

/-- EmitOut(c): one event on the OUT port (10_state.md R33). -/
def emitOut (c : Value) (s : State) : State := { s with outStream := s.outStream ++ [c] }

/-- The code the transceiver appends to every line (47_out_in.md R187). -/
def lineTerminator : Value := 10

/-- TakeChar() (47_out_in.md R184): the next code, refilling the buffer from one line when it is empty. The answer `none`
says that the host has offered nothing yet, so that the instruction waits (R185); a closed input is the fault
InputExhausted (R186) and stays closed. -/
def takeChar (s : State) : Res (Option Value) :=
  match s.pending with
  | c :: rest => .ok (some c) { s with pending := rest }
  | [] =>
    match s.inPort with
    | [] => .ok none s
    | .nothingYet :: later => .ok none { s with inPort := later }
    | .closed :: _ => .ended (raise .inputExhausted 0 s)
    | .line l :: later =>
      let buffer := l ++ [lineTerminator]
      .ok (some (buffer.headD lineTerminator)) { s with pending := buffer.tail, inPort := later }

end Sys2Proof.Machine
end

