-- ==== Sys2Proof/Machine/Operands.lean ====
section
/-! DEFINITION. The two operand primitives every instruction uses, Resolve and Store (30_encoding.md R77, R78), and the
shared shape of the three-operand instructions (44_alu.md). -/

namespace Sys2Proof.Machine

/-- Resolve: a literal is itself, a register reference its content, an invalid word the fault InvalidAddress
(30_encoding.md R77). -/
def resolve (o : Operand) (s : State) : Res Value :=
  match o with
  | .lit v => .ok v s
  | .reg r => .ok (s.getReg r) s
  | .invalid w => .ended (raise .invalidAddress w s)

/-- Store: the value first, itself resolved when it is 32768 or more; then the destination, which must be a register
reference (30_encoding.md R78). A value below 32768 is its own resolution, so one resolution says both cases. -/
def store (dest : Operand) (v : Word) (s : State) : Res Unit :=
  (resolve (.ofWord v) s).andThen fun v s =>
    match dest with
    | .reg r => .ok () (s.setReg r v)
    | .lit _ => .ended (raise .invalidRegister dest.word s)
    | .invalid _ => .ended (raise .invalidRegister dest.word s)

/-- The five-line shape of eq, gt, add, mul, and, or: both sources, the result, the destination (44_alu.md, 42_compare.md,
30_encoding.md R79). -/
def binary (f : Value → Value → Value) (a b c : Operand) (s : State) : Res Unit :=
  (resolve b s).andThen fun vb s =>
    (resolve c s).andThen fun vc s => store a (widen (f vb vc)) s

end Sys2Proof.Machine
end

