-- ==== Sys2Proof/Machine/Alu.lean ====
section
/-! DEFINITION. add, mul, mod, and, or, not (44_alu.md). Arithmetic is exact on the natural numbers and narrowed at the end
(R147). -/

namespace Sys2Proof.Machine

/-- The sum modulo 32768 (R140). -/
def sum (vb vc : Value) : Value := BitVec.ofNat 15 ((vb.toNat + vc.toNat) % Config.modulus)

/-- The product modulo 32768 (R141). -/
def product (vb vc : Value) : Value := BitVec.ofNat 15 ((vb.toNat * vc.toNat) % Config.modulus)

/-- The remainder of the unsigned division, for a divisor that is not 0 (R142). -/
def remainder (vb vc : Value) : Value := BitVec.ofNat 15 (vb.toNat % vc.toNat)

/-- The 15-bit complement (R146). -/
def complement (vb : Value) : Value := BitVec.ofNat 15 (32767 - vb.toNat)

/-- add a b c (R140). -/
def execAdd (a b c : Operand) (s : State) : Host.Outcome State Fault Refusal := finish (binary sum a b c (s.past 4))

/-- mul a b c (R141). -/
def execMul (a b c : Operand) (s : State) : Host.Outcome State Fault Refusal := finish (binary product a b c (s.past 4))

/-- mod a b c: a zero divisor is the fault DivideByZero, after both sources are resolved and before the destination is
checked (R142, R145). -/
def execMod (a b c : Operand) (s : State) : Host.Outcome State Fault Refusal :=
  finish ((resolve b (s.past 4)).andThen fun vb s => (resolve c s).andThen fun vc s =>
    if vc = 0 then .ended (raise .divideByZero 0 s) else store a (widen (remainder vb vc)) s)

/-- and a b c (R143). -/
def execAnd (a b c : Operand) (s : State) : Host.Outcome State Fault Refusal :=
  finish (binary (fun vb vc => vb &&& vc) a b c (s.past 4))

/-- or a b c (R144). -/
def execOr (a b c : Operand) (s : State) : Host.Outcome State Fault Refusal :=
  finish (binary (fun vb vc => vb ||| vc) a b c (s.past 4))

/-- not a b (R146). -/
def execNot (a b : Operand) (s : State) : Host.Outcome State Fault Refusal :=
  finish ((resolve b (s.past 3)).andThen fun vb s => store a (widen (complement vb)) s)

end Sys2Proof.Machine
end

