-- ==== Sys2Proof/Machine/CharIo.lean ====
section
/-! DEFINITION. out and in (47_out_in.md). -/

namespace Sys2Proof.Machine

/-- out a: the whole 15-bit value is one event (R180). -/
def execOut (a : Operand) (s : State) : Host.Outcome State Fault Refusal :=
  finish ((resolve a (s.past 2)).andThen fun c s => .ok () (emitOut c s))

/-- in a: the character is taken before the destination is checked (R181). While the host has offered nothing yet the
instruction has not begun: the pc stays at its opcode word and the next step asks again (R185; log entry 3). -/
def execIn (a : Operand) (s : State) : Host.Outcome State Fault Refusal :=
  match takeChar (s.past 2) with
  | .ended t => .next t
  | .ok none t => .next { t with pc := s.pc }
  | .ok (some c) t => finish (store a (widen c) t)

end Sys2Proof.Machine
end

