-- ==== Sys2Proof/Machine/Flags.lean ====
section
/-! DEFINITION. The hardware has no flags (10_state.md R31): a comparison leaves the value 0 or 1 in a general register, and a
conditional jump tests a value. These are the only truth values it has. -/

namespace Sys2Proof.Machine

/-- What eq and gt store: exactly 1 or 0 (42_compare.md R120, R121). -/
def truthValue (p : Bool) : Value := if p then 1 else 0

/-- What jt and jf test: a condition holds when it is not 0 (43_jumps.md R131, R132). -/
def isNonZero (v : Value) : Bool := v ≠ 0

end Sys2Proof.Machine
end

