-- ==== Sys2Proof/Machine/Compare.lean ====
section
/-! DEFINITION. eq and gt (42_compare.md). -/

namespace Sys2Proof.Machine

/-- eq a b c: 1 if the values are equal, else 0 (R120). -/
def execEq (a b c : Operand) (s : State) : Host.Outcome State Fault Refusal :=
  finish (binary (fun vb vc => truthValue (vb = vc)) a b c (s.past 4))

/-- gt a b c: 1 if the first value is the greater, both unsigned, else 0 (R121). -/
def execGt (a b c : Operand) (s : State) : Host.Outcome State Fault Refusal :=
  finish (binary (fun vb vc => truthValue (vc.toNat < vb.toNat)) a b c (s.past 4))

end Sys2Proof.Machine
end

