-- ==== Sys2Proof/Machine/HaltNoop.lean ====
section
/-! DEFINITION. halt and noop (40_halt_noop.md). Every meaning takes the state with the pc at its own opcode word and first
moves past its words, as the fetches of its cycle did (30_encoding.md R73; log entry 9). -/

namespace Sys2Proof.Machine

/-- halt: core dump, status Halted (R100). -/
def execHalt (s : State) : Host.Outcome State Fault Refusal := .next (haltMachine (s.past 1))

/-- noop: nothing but the pc (R101). -/
def execNoop (s : State) : Host.Outcome State Fault Refusal := .next (s.past 1)

end Sys2Proof.Machine
end

