-- ==== Sys2Proof/Machine/Jumps.lean ====
section
/-! DEFINITION. jmp, jt and jf (43_jumps.md). A target is an absolute cell address. -/

namespace Sys2Proof.Machine

/-- Jumps to the value of an operand. -/
def jumpTo (t : Operand) (s : State) : Res Unit :=
  (resolve t s).andThen fun v s => .ok () (s.jump (widen v))

/-- jmp a (R130). -/
def execJmp (a : Operand) (s : State) : Host.Outcome State Fault Refusal := finish (jumpTo a (s.past 2))

/-- jt a b: the target is resolved only when the condition is not 0 (R131). -/
def execJt (a b : Operand) (s : State) : Host.Outcome State Fault Refusal :=
  finish ((resolve a (s.past 3)).andThen fun va s => if isNonZero va then jumpTo b s else .ok () s)

/-- jf a b: the target is resolved only when the condition is 0 (R132). -/
def execJf (a b : Operand) (s : State) : Host.Outcome State Fault Refusal :=
  finish ((resolve a (s.past 3)).andThen fun va s => if isNonZero va then .ok () s else jumpTo b s)

end Sys2Proof.Machine
end

