-- ==== Sys2Proof/Machine/Linkage.lean ====
section
/-! DEFINITION. call and ret (46_call_ret.md). -/

namespace Sys2Proof.Machine

/-- call a with a given STACK_DEPTH: the return address A + 2 is pushed before the target is resolved (R170,
60_exceptions.md R210). -/
def callWithDepth (depth : Option Nat) (a : Operand) (s : State) : Res Unit :=
  (push depth (s.past 2).pc (s.past 2)).andThen fun _ s => jumpTo a s

/-- call a (R170). -/
def execCall (a : Operand) (s : State) : Host.Outcome State Fault Refusal :=
  finish (callWithDepth Config.stackDepth a s)

/-- ret: the empty stack halts the machine and is no fault; else the top entry becomes the pc, unchecked (R171). -/
def execRet (s : State) : Host.Outcome State Fault Refusal :=
  if s.stack = [] then .next (haltMachine (s.past 1))
  else finish ((pop (s.past 1)).andThen fun t s => .ok () (s.jump t))

end Sys2Proof.Machine
end

