-- ==== Sys2Proof/Machine/LoadStore.lean ====
section
/-! DEFINITION. rmem and wmem (45_rmem_wmem.md). The address is a resolved value, so every address is a cell (20_memory.md
R52). -/

namespace Sys2Proof.Machine

/-- rmem a b: the cell's content goes through Store, which resolves a content of 32768 or more (R160). -/
def execRmem (a b : Operand) (s : State) : Host.Outcome State Fault Refusal :=
  finish ((resolve b (s.past 3)).andThen fun addr s => store a (s.mem.readCell addr.toNat) s)

/-- wmem a b: the address is the first operand, the data the second; bit 15 of the cell becomes 0 (R161). -/
def execWmem (a b : Operand) (s : State) : Host.Outcome State Fault Refusal :=
  finish ((resolve a (s.past 3)).andThen fun addr s => (resolve b s).andThen fun v s =>
    .ok () { s with mem := s.mem.writeCell addr.toNat (widen v) })

end Sys2Proof.Machine
end

