-- ==== Sys2Proof/Machine/Transfer.lean ====
section
/-! DEFINITION. set, push and pop (41_set_push_pop.md). -/

namespace Sys2Proof.Machine

/-- set a b (R110). -/
def execSet (a b : Operand) (s : State) : Host.Outcome State Fault Refusal :=
  finish ((resolve b (s.past 3)).andThen fun v s => store a (widen v) s)

/-- push a with a given STACK_DEPTH: the operand is resolved before the stack is found full (R111, 60_exceptions.md R210). -/
def pushWithDepth (depth : Option Nat) (a : Operand) (s : State) : Res Unit :=
  (resolve a (s.past 2)).andThen fun v s => push depth (widen v) s

/-- push a (R111). -/
def execPush (a : Operand) (s : State) : Host.Outcome State Fault Refusal :=
  finish (pushWithDepth Config.stackDepth a s)

/-- pop a: the entry is removed before the destination is checked; an entry of 32768 or more is resolved by Store (R112). -/
def execPop (a : Operand) (s : State) : Host.Outcome State Fault Refusal :=
  finish ((pop (s.past 2)).andThen fun v s => store a v s)

end Sys2Proof.Machine
end

