-- ==== Sys2Proof/Machine/Fetch.lean ====
section
/-! DEFINITION. The fetch half of the instruction cycle (30_encoding.md R73, R74), and placing words in memory. -/

namespace Sys2Proof.Machine

/-- Fetch(): the cell at the pc, and the pc one further; beyond the last cell the fault FetchOutOfRange (R74). -/
def fetchCell (s : State) : Res Word :=
  if Config.memWords ≤ s.pc.toNat then .ended (raise .fetchOutOfRange s.pc s)
  else .ok (s.mem.readCell s.pc.toNat) (s.past 1)

/-- One operand word, by its class. -/
def fetchOperand (s : State) : Res Operand := (fetchCell s).andThen fun w s => .ok (.ofWord w) s

/-- The opcode word, then as many operand words as it announces. An unknown opcode is fatal before any operand is
fetched (R73, 60_exceptions.md R204). The state answered has the pc after the instruction's last word. -/
def fetchInstr (s : State) : Res Instr :=
  (fetchCell s).andThen fun op s =>
    match shapeOf op with
    | none => .ended (raise .unknownOpcode op s)
    | some (.zero i) => .ok i s
    | some (.one f) => (fetchOperand s).andThen fun a s => .ok (f a) s
    | some (.two f) => (fetchOperand s).andThen fun a s => (fetchOperand s).andThen fun b s => .ok (f a b) s
    | some (.three f) =>
      (fetchOperand s).andThen fun a s => (fetchOperand s).andThen fun b s =>
        (fetchOperand s).andThen fun c s => .ok (f a b c) s

/-- The words of the n cells from address a on, as far as memory reaches. -/
def Memory.wordsFrom (m : Memory) (a : Nat) : Nat → List Word
  | 0 => []
  | n + 1 => if a < Config.memWords then m.readCell a :: Memory.wordsFrom m (a + 1) n else []

/-- The words at the pc: the longest instruction has four (30_encoding.md R70). -/
def State.codeWords (s : State) : List Word := s.mem.wordsFrom s.pc.toNat 4

/-- Sets the cells from address a on to the given words, as far as memory reaches. -/
def Memory.placeWords : Memory → Nat → List Word → Memory
  | m, _, [] => m
  | m, a, w :: rest => if a < Config.memWords then Memory.placeWords (m.writeCell a w) (a + 1) rest else m

end Sys2Proof.Machine
end

