-- ==== Sys2Proof/Machine/Step.lean ====
section
/-! DEFINITION. One instruction cycle (30_encoding.md R73), and placing an instruction where it fetches. -/

namespace Sys2Proof.Machine

/-- While the status is Running, one cycle: fetch, then execute. An instruction that was fetched whole is executed from the
state the fetches began in, since each meaning moves past its own words (log entry 9). An ended machine is absorbing:
nothing changes (60_exceptions.md R215; log entry 4). -/
def step (s : State) : Host.Outcome State Fault Refusal :=
  match s.status with
  | .running =>
    match fetchInstr s with
    | .ok i _ => exec i s
    | .ended t => .next t
  | .halted => .next s
  | .faulted _ _ => .next s

/-- The state with an instruction of the opcode table in the four cells at the pc, and Running, so that the next step runs it
(log entry 5). -/
def State.withFetchWord (s : State) (nbits w : Nat) : State :=
  { s with status := .running, mem := s.mem.placeWords s.pc.toNat (tableWords nbits w) }

end Sys2Proof.Machine
end

