-- ==== Sys2Proof/Machine/HostPorts.lean ====
section
/-! DEFINITION. What the host does to the machine and sees of it: reset with an image (70_reset_and_hazards.md), answers on
the IN port (10_state.md R34), the status on the TERM port (R36). No step calls any of these. -/

namespace Sys2Proof.Machine

/-- Reset with an image on the IMG port (R240 to R244). An odd image is LoadError reason 1, checked first; one of more than
65536 bytes is LoadError reason 2; then no core dump is made and nothing runs. The spec leaves the rest of the state
undefined after a LoadError, so the argument `undefinedState`, which nothing constrains, gives it (log entry 6). -/
def State.load (undefinedState : State) (image : List Byte) : State :=
  if image.length % 2 = 1 then
    { undefinedState with status := .faulted .loadError 1, outStream := [], diagStream := [] }
  else if Config.maxImageBytes < image.length then
    { undefinedState with status := .faulted .loadError 2, outStream := [], diagStream := [] }
  else { State.reset with mem := Memory.ofBytes 0 image }

/-- The host's further answers to line requests, after those it has already settled on (10_state.md R34; log entry 2). -/
def State.offer (s : State) (answers : List HostAnswer) : State := { s with inPort := s.inPort ++ answers }

/-- The numeric code of a fault cause (60_exceptions.md R201). -/
def Fault.code : Fault → Nat
  | .loadError => 1
  | .invalidAddress => 2
  | .invalidRegister => 3
  | .stackUnderflow => 4
  | .unknownOpcode => 5
  | .divideByZero => 6
  | .fetchOutOfRange => 7
  | .inputExhausted => 8
  | .stackOverflow => 9

/-- What the TERM port shows of an ended run: nothing while it runs, 0 for Halted, the cause code for Faulted. A software
host makes it exit code zero or non-zero (10_state.md R36). -/
def State.termCode (s : State) : Option Nat :=
  match s.status with
  | .running => none
  | .halted => some 0
  | .faulted cause _ => some cause.code

end Sys2Proof.Machine
end

