-- ==== Sys2Proof/Safety.lean ====
section
/-! DEFINITION. The terms claims use: when a run has ended and ended well, what an operand holds, the state a fault leaves,
and the invariant of a run. -/

namespace Sys2Proof

/-- The operand can be a destination (30_encoding.md R78). -/
def Operand.isReg : Operand → Bool
  | .reg _ => true
  | .lit _ => false
  | .invalid _ => false

/-- The destination operand of the twelve instructions that have one (10_state.md R21). -/
def Instr.destination : Instr → Option Operand
  | .set a _ | .pop a | .eq a _ _ | .gt a _ _ | .add a _ _ | .mul a _ _ | .mod a _ _ | .and a _ _ | .or a _ _ | .not a _
  | .rmem a _ | .in_ a => some a
  | .halt | .push _ | .jmp _ | .jt _ _ | .jf _ _ | .wmem _ _ | .call _ | .ret | .out _ | .noop => none

end Sys2Proof

namespace Sys2Proof.Machine

/-- The run has ended exactly when the status is not Running (60_exceptions.md R221). -/
def State.ended (s : State) : Bool := s.status ≠ .running

/-- The run has ended well exactly when the status is Halted (60_exceptions.md R221). -/
def State.endedWell (s : State) : Bool := s.status = .halted

/-- What a value operand holds in a state: a literal itself, a register its content; nothing for a word of the invalid
class (30_encoding.md R75, R77). -/
def State.valueOf (s : State) : Operand → Option Value
  | .lit v => some v
  | .reg r => some (s.getReg r)
  | .invalid _ => none

/-- The state a fatal error leaves when n words of the instruction have been fetched: the pc after them, one core dump, the
status; nothing else (60_exceptions.md R200, R212, R214). -/
def State.faultAt (s : State) (n : Word) (cause : Fault) (info : Word) : State :=
  { s with
    pc := s.pc + n
    diagStream := s.diagStream ++ [⟨s.pc + n, s.regs⟩]
    status := .faulted cause info }

/-- The state normal termination leaves by a one-word instruction (60_exceptions.md R213). -/
def State.haltedAfter (s : State) : State :=
  { s with
    pc := s.pc + 1
    diagStream := s.diagStream ++ [⟨s.pc + 1, s.regs⟩]
    status := .halted }

/-- The DIAG port has carried no event while the run goes on, none after a failed load, and after any other end exactly the
one of the final pc and registers (10_state.md R35). -/
def State.dumpedOnce (s : State) : Bool :=
  match s.status with
  | .running => s.diagStream = []
  | .halted => s.diagStream = [⟨s.pc, s.regs⟩]
  | .faulted .loadError _ => s.diagStream = []
  | .faulted _ _ => s.diagStream = [⟨s.pc, s.regs⟩]

/-- The invariant of a run (10_state.md R35, R41): memory canonical, pc and stack entries at most 32768, one core dump at the
end. Registers and pending codes are below 32768 by their type. -/
def State.inv (s : State) : Bool :=
  s.mem.wf && decide (s.pc.toNat ≤ 32768) && s.stack.all (fun e => decide (e.toNat ≤ 32768)) && s.dumpedOnce

end Sys2Proof.Machine
end

