-- ==== Sys2Proof/Certificates/Slice0/Obligations.lean ====
section
/-! DEFINITION. The statements for the provers. In every statement about exec, s is the state with the pc at the instruction's
opcode word, A in the spec's rules. -/

open Sys2Proof Sys2Proof.Machine

namespace Sys2Proof.Claims

/-- The whole rule of a three-operand instruction other than mod: the result in the destination register and the pc at
A + 4, or the first fault of InvalidAddress(b), InvalidAddress(c), InvalidRegister(a). -/
def BinaryRule (mk : Operand → Operand → Operand → Instr) (result : Value → Value → Value → Prop) : Prop :=
  (∀ (s : State) (r : Fin 8) (b c : Operand) (vb vc v : Value),
    s.valueOf b = some vb → s.valueOf c = some vc → result vb vc v →
    exec (mk (.reg r) b c) s = .next { s with pc := s.pc + 4, regs := s.regs.set r v }) ∧
  (∀ (s : State) (a c : Operand) (w : Word),
    exec (mk a (.invalid w) c) s = .next (s.faultAt 4 .invalidAddress w)) ∧
  (∀ (s : State) (a b : Operand) (vb : Value) (w : Word),
    s.valueOf b = some vb → exec (mk a b (.invalid w)) s = .next (s.faultAt 4 .invalidAddress w)) ∧
  (∀ (s : State) (a b c : Operand) (vb vc : Value),
    s.valueOf b = some vb → s.valueOf c = some vc → a.isReg = false →
    exec (mk a b c) s = .next (s.faultAt 4 .invalidRegister a.word))

/-- The whole rule of set and not: the result in the destination register and the pc at A + 3, or the first fault of
InvalidAddress(b), InvalidRegister(a). -/
def UnaryRule (mk : Operand → Operand → Instr) (result : Value → Value → Prop) : Prop :=
  (∀ (s : State) (r : Fin 8) (b : Operand) (vb v : Value),
    s.valueOf b = some vb → result vb v →
    exec (mk (.reg r) b) s = .next { s with pc := s.pc + 3, regs := s.regs.set r v }) ∧
  (∀ (s : State) (a : Operand) (w : Word),
    exec (mk a (.invalid w)) s = .next (s.faultAt 3 .invalidAddress w)) ∧
  (∀ (s : State) (a b : Operand) (vb : Value),
    s.valueOf b = some vb → a.isReg = false →
    exec (mk a b) s = .next (s.faultAt 3 .invalidRegister a.word))

/-- The whole rule of a conditional jump: taken when the condition's value meets `taken`, and only then is the target
resolved. -/
def CondJumpRule (mk : Operand → Operand → Instr) (taken : Value → Prop) : Prop :=
  (∀ (s : State) (a b : Operand) (va vb : Value) (t : Word),
    s.valueOf a = some va → taken va → s.valueOf b = some vb → t.toNat = vb.toNat →
    exec (mk a b) s = .next { s with pc := t }) ∧
  (∀ (s : State) (a b : Operand) (va : Value),
    s.valueOf a = some va → ¬ taken va → exec (mk a b) s = .next { s with pc := s.pc + 3 }) ∧
  (∀ (s : State) (b : Operand) (w : Word),
    exec (mk (.invalid w) b) s = .next (s.faultAt 3 .invalidAddress w)) ∧
  (∀ (s : State) (a : Operand) (va : Value) (w : Word),
    s.valueOf a = some va → taken va →
    exec (mk a (.invalid w)) s = .next (s.faultAt 3 .invalidAddress w))

end Sys2Proof.Claims

open Sys2Proof.Claims

/-! ### Encoding -/

/-- Decoding the words of a well-formed instruction gives it back, with every operand at every value (30_encoding.md
R70, R75, R80). -/
def Obligations.DecodeOfEncode : Prop :=
  ∀ (i : Instr) (rest : List Word), i.wf = true → decode (encode i ++ rest) = .ok (i, rest)

/-- Whatever decodes is well formed, and its encoding is the words it was read from: each word sequence has one reading and
no bit of it is dropped (30_encoding.md R70, R75, R80, R84). -/
def Obligations.EncodeOfDecode : Prop :=
  ∀ (ws : List Word) (i : Instr) (rest : List Word),
    decode ws = .ok (i, rest) → i.wf = true ∧ encode i ++ rest = ws

/-- Words of the spec's own examples decode to the instructions it spells beside them (30_encoding.md section 8,
95_test_vectors.md). -/
def Obligations.SampleWordsDecode : Prop :=
  decode [9, 32768, 4, 5] = .ok (.add (.reg 0) (.lit 4) (.lit 5), []) ∧
  decode [1, 32769, 1234] = .ok (.set (.reg 1) (.lit 1234), []) ∧
  decode [7, 32768, 6] = .ok (.jt (.reg 0) (.lit 6), []) ∧
  decode [15, 32770, 100] = .ok (.rmem (.reg 2) (.lit 100), []) ∧
  decode [16, 100, 32769] = .ok (.wmem (.lit 100) (.reg 1), []) ∧
  decode [17, 10] = .ok (.call (.lit 10), []) ∧
  decode [20, 32768] = .ok (.in_ (.reg 0), []) ∧
  decode [0] = .ok (.halt, [])

/-- The three classes of a raw operand word (30_encoding.md R75). -/
def Obligations.OperandWordClasses : Prop :=
  ∀ w : Word,
    (w.toNat ≤ 32767 → ∃ v : Value, Operand.ofWord w = .lit v ∧ v.toNat = w.toNat) ∧
    (32768 ≤ w.toNat → w.toNat ≤ 32775 → ∃ r : Fin 8, Operand.ofWord w = .reg r ∧ r.val = w.toNat - 32768) ∧
    (32776 ≤ w.toNat → Operand.ofWord w = .invalid w)

/-- Resolve on a raw word: a literal is itself, a register reference its content, any other word the fault
(30_encoding.md R77). -/
def Obligations.ResolveByClass : Prop :=
  ∀ (s : State) (w : Word),
    (∀ v : Value, v.toNat = w.toNat → resolve (.ofWord w) s = .ok v s) ∧
    (∀ r : Fin 8, w.toNat = 32768 + r.val → resolve (.ofWord w) s = .ok (s.getReg r) s) ∧
    (32776 ≤ w.toNat → resolve (.ofWord w) s = .ended (s.faultAt 0 .invalidAddress w))

/-! ### The cycle -/

/-- When the words at the pc decode to i, a running machine's step is exec of i. Nothing stands around exec: each meaning moves
the pc past its own words (30_encoding.md R73; log entry 9). -/
def Obligations.StepRunsDecodedInstruction : Prop :=
  ∀ (s : State) (i : Instr) (rest : List Word),
    s.status = .running → decode s.codeWords = .ok (i, rest) → step s = exec i s

/-- Every opcode word above 21 is fatal after the opcode fetch and before any operand fetch (60_exceptions.md R204,
30_encoding.md R81). -/
def Obligations.UnknownOpcodeIsFatal : Prop :=
  ∀ s : State, s.status = .running → s.pc.toNat ≤ 32767 → 22 ≤ (s.mem.readCell s.pc.toNat).toNat →
    step s = .next (s.faultAt 1 .unknownOpcode (s.mem.readCell s.pc.toNat))

/-- A fetch beyond the last cell is fatal, for the opcode word and for an operand word alike; the pc does not wrap. The spec's
own decision D4 (30_encoding.md R74, 60_exceptions.md R208). -/
def Obligations.FetchPastTheEndIsFatal : Prop :=
  (∀ s : State, s.status = .running → 32768 ≤ s.pc.toNat →
    step s = .next (s.faultAt 0 .fetchOutOfRange s.pc)) ∧
  (∀ (s : State) (i : Instr), s.status = .running → s.pc.toNat ≤ 32767 →
    s.mem.readCell s.pc.toNat = i.opcode → 32768 < s.pc.toNat + i.length →
    step s = .next { s with
      pc := 32768
      diagStream := s.diagStream ++ [⟨32768, s.regs⟩]
      status := .faulted .fetchOutOfRange 32768 })

/-- Halted and Faulted are absorbing: no state changes (60_exceptions.md R215). That a step of an ended machine answers that same
state is the model's reading (log entry 4). -/
def Obligations.EndedMachineNeverChanges : Prop :=
  ∀ s : State, s.ended = true → ∀ k : Nat, Host.Core.run core k s = .next s

/-- No step of any state answers a fault or a refusal: fatal errors are states with the status Faulted (log entry 4). -/
def Obligations.EveryStepAnswersNext : Prop :=
  ∀ s : State, ∃ t : State, step s = .next t

/-- A zero cell at the pc halts a running machine, so execution that reaches zero-filled memory halts (30_encoding.md R83,
70_reset_and_hazards.md R246). -/
def Obligations.ZeroCellHalts : Prop :=
  ∀ s : State, s.status = .running → s.pc.toNat ≤ 32767 → s.mem.readCell s.pc.toNat = 0 →
    step s = .next s.haltedAfter

/-- Placing a table word at the pc makes the next step run the instruction the decoder reads from it (the model's own
function, log entry 5). -/
def Obligations.PlacedInstructionRuns : Prop :=
  ∀ (s : State) (nbits w : Nat) (i : Instr), s.pc.toNat + 4 ≤ 32768 → decodeTableWord nbits w = some i →
    step (s.withFetchWord nbits w) = exec i (s.withFetchWord nbits w)

/-! ### Reset -/

/-- A well-formed image fills memory from cell 0, low byte first, and the rest of memory is zero (70_reset_and_hazards.md
R241, R242). -/
def Obligations.ImageFillsMemory : Prop :=
  ∀ (u : State) (image : List Byte), image.length % 2 = 0 → image.length ≤ 65536 →
    ∀ a : Nat, a ≤ 32767 →
      (2 * a < image.length →
        ((State.load u image).mem.readCell a).toNat
          = (image.getD (2 * a) 0).toNat + 256 * (image.getD (2 * a + 1) 0).toNat) ∧
      (image.length ≤ 2 * a → (State.load u image).mem.readCell a = 0)

/-- After a reset with a well-formed image everything but memory and the host's answers is at the value of 10_state.md
section 9; the empty buffer is the spec's decision D14, and no answer on the IN port is the model's choice (log entry 2). -/
def Obligations.ResetStateAfterLoad : Prop :=
  (∀ (u : State) (image : List Byte), image.length % 2 = 0 → image.length ≤ 65536 →
    State.load u image = { State.reset with mem := (State.load u image).mem }) ∧
  (∀ r : Fin 8, State.reset.getReg r = 0) ∧ State.reset.pc = 0 ∧ State.reset.stack = [] ∧ State.reset.pending = [] ∧
  State.reset.status = .running ∧ State.reset.outStream = [] ∧ State.reset.diagStream = [] ∧ State.reset.inPort = [] ∧
  (∀ a : Nat, State.reset.mem.readCell a = 0)

/-- An odd image fails with reason 1, checked first, an over-long one with reason 2 (the spec's decision D20); there is no core
dump and no output, and no instruction runs. What the rest of the state holds is free (log entry 6). That a step after the
failed load answers the same state is the model's reading (log entry 4): the spec gives an ended machine no step. -/
def Obligations.MalformedImageIsRefused : Prop :=
  ∀ (u : State) (image : List Byte),
    (image.length % 2 = 1 →
      (State.load u image).status = .faulted .loadError 1 ∧ (State.load u image).diagStream = [] ∧
      (State.load u image).outStream = [] ∧ step (State.load u image) = .next (State.load u image)) ∧
    (image.length % 2 = 0 → 65536 < image.length →
      (State.load u image).status = .faulted .loadError 2 ∧ (State.load u image).diagStream = [] ∧
      (State.load u image).outStream = [] ∧ step (State.load u image) = .next (State.load u image))

/-! ### The instructions, one rule each -/

/-- halt: one core dump with the pc A + 1, status Halted, nothing else; no further instruction is fetched (R100). That the
step of the halted state answers that same state is the model's reading (log entry 4): the spec gives it no step. -/
def Obligations.HaltRule : Prop :=
  ∀ s : State, exec .halt s = .next s.haltedAfter ∧ step s.haltedAfter = .next s.haltedAfter

/-- noop: the pc is A + 1 and nothing else changes (R101). -/
def Obligations.NoopRule : Prop :=
  ∀ s : State, exec .noop s = .next { s with pc := s.pc + 1 }

/-- set: the value of b (R110). -/
def Obligations.SetRule : Prop := UnaryRule .set fun vb v => v = vb

/-- push: the value of a becomes the new top; InvalidAddress leaves the stack unchanged; with a finite STACK_DEPTH a full stack
is StackOverflow, raised after Resolve (R111). -/
def Obligations.PushRule : Prop :=
  (∀ (s : State) (a : Operand) (va : Value) (e : Word), s.valueOf a = some va → e.toNat = va.toNat →
    exec (.push a) s = .next { s with pc := s.pc + 2, stack := s.stack ++ [e] }) ∧
  (∀ (s : State) (w : Word), exec (.push (.invalid w)) s = .next (s.faultAt 2 .invalidAddress w)) ∧
  (∀ (s : State) (a : Operand) (va : Value), s.valueOf a = some va →
    pushWithDepth (some s.stack.length) a s = .ended (s.faultAt 2 .stackOverflow 0)) ∧
  (∀ (s : State) (depth : Option Nat) (w : Word),
    pushWithDepth depth (.invalid w) s = .ended (s.faultAt 2 .invalidAddress w))

/-- pop: the top entry goes to the destination, an entry that is a register reference as that register's content; the entry is
gone in either fault of Store; the empty stack is StackUnderflow (R112). -/
def Obligations.PopRule : Prop :=
  (∀ (s : State) (r : Fin 8) (below : List Word) (e : Word) (v : Value), s.stack = below ++ [e] → v.toNat = e.toNat →
    exec (.pop (.reg r)) s = .next { s with pc := s.pc + 2, stack := below, regs := s.regs.set r v }) ∧
  (∀ (s : State) (r q : Fin 8) (below : List Word) (e : Word), s.stack = below ++ [e] → e.toNat = 32768 + q.val →
    exec (.pop (.reg r)) s = .next { s with pc := s.pc + 2, stack := below, regs := s.regs.set r (s.getReg q) }) ∧
  (∀ (s : State) (a : Operand) (below : List Word) (e : Word), s.stack = below ++ [e] → 32776 ≤ e.toNat →
    exec (.pop a) s = .next (State.faultAt { s with stack := below } 2 .invalidAddress e)) ∧
  (∀ (s : State) (a : Operand) (below : List Word) (e : Word), s.stack = below ++ [e] → e.toNat ≤ 32775 →
    a.isReg = false → exec (.pop a) s = .next (State.faultAt { s with stack := below } 2 .invalidRegister a.word)) ∧
  (∀ (s : State) (a : Operand), s.stack = [] → exec (.pop a) s = .next (s.faultAt 2 .stackUnderflow 0))

/-- eq: 1 if the values are equal, else 0 (R120). -/
def Obligations.EqRule : Prop :=
  BinaryRule .eq fun vb vc v => (vb.toNat = vc.toNat ∧ v = 1) ∨ (vb.toNat ≠ vc.toNat ∧ v = 0)

/-- gt: 1 if the first value is greater as an unsigned number, else 0 (R121). -/
def Obligations.GtRule : Prop :=
  BinaryRule .gt fun vb vc v => (vb.toNat > vc.toNat ∧ v = 1) ∨ (vb.toNat ≤ vc.toNat ∧ v = 0)

/-- jmp: the pc becomes the value of a; InvalidAddress leaves it at A + 2 (R130). -/
def Obligations.JmpRule : Prop :=
  (∀ (s : State) (a : Operand) (va : Value) (t : Word), s.valueOf a = some va → t.toNat = va.toNat →
    exec (.jmp a) s = .next { s with pc := t }) ∧
  (∀ (s : State) (w : Word), exec (.jmp (.invalid w)) s = .next (s.faultAt 2 .invalidAddress w))

/-- jt: taken when the condition is not 0. That an untaken target is not resolved is the spec's decision D8. -/
def Obligations.JtRule : Prop := CondJumpRule .jt fun va => va.toNat ≠ 0

/-- jf: taken when the condition is 0. That an untaken target is not resolved is the spec's decision D8. -/
def Obligations.JfRule : Prop := CondJumpRule .jf fun va => va.toNat = 0

/-- add: the sum modulo 32768 (R140). -/
def Obligations.AddRule : Prop := BinaryRule .add fun vb vc v => v.toNat = (vb.toNat + vc.toNat) % 32768

/-- mul: the product modulo 32768 (R141). -/
def Obligations.MulRule : Prop := BinaryRule .mul fun vb vc v => v.toNat = (vb.toNat * vc.toNat) % 32768

/-- mod: the unique remainder for a divisor that is not 0. That a zero divisor is the fault DivideByZero, before the destination
is checked, is the spec's decision D10. -/
def Obligations.ModRule : Prop :=
  (∀ (s : State) (r : Fin 8) (b c : Operand) (vb vc v : Value) (q : Nat),
    s.valueOf b = some vb → s.valueOf c = some vc → vb.toNat = q * vc.toNat + v.toNat → v.toNat < vc.toNat →
    exec (.mod (.reg r) b c) s = .next { s with pc := s.pc + 4, regs := s.regs.set r v }) ∧
  (∀ (s : State) (a c : Operand) (w : Word),
    exec (.mod a (.invalid w) c) s = .next (s.faultAt 4 .invalidAddress w)) ∧
  (∀ (s : State) (a b : Operand) (vb : Value) (w : Word), s.valueOf b = some vb →
    exec (.mod a b (.invalid w)) s = .next (s.faultAt 4 .invalidAddress w)) ∧
  (∀ (s : State) (a b c : Operand) (vb : Value), s.valueOf b = some vb → s.valueOf c = some 0 →
    exec (.mod a b c) s = .next (s.faultAt 4 .divideByZero 0)) ∧
  (∀ (s : State) (a b c : Operand) (vb vc : Value), s.valueOf b = some vb → s.valueOf c = some vc → vc.toNat ≠ 0 →
    a.isReg = false → exec (.mod a b c) s = .next (s.faultAt 4 .invalidRegister a.word))

/-- and: bit i of the result is bit i of both (R143). -/
def Obligations.AndRule : Prop :=
  BinaryRule .and fun vb vc v => ∀ i : Nat, i < 15 → v.toNat.testBit i = (vb.toNat.testBit i && vc.toNat.testBit i)

/-- or: bit i of the result is bit i of either (R144). -/
def Obligations.OrRule : Prop :=
  BinaryRule .or fun vb vc v => ∀ i : Nat, i < 15 → v.toNat.testBit i = (vb.toNat.testBit i || vc.toNat.testBit i)

/-- not: every one of bits 14 to 0 is inverted (R146). -/
def Obligations.NotRule : Prop :=
  UnaryRule .not fun vb v => ∀ i : Nat, i < 15 → v.toNat.testBit i = !vb.toNat.testBit i

/-- rmem: by the content of the cell, itself, the register it names, or InvalidAddress(content); then InvalidRegister(a); memory
does not change (R160). -/
def Obligations.RmemRule : Prop :=
  (∀ (s : State) (r : Fin 8) (b : Operand) (addr v : Value), s.valueOf b = some addr →
    v.toNat = (s.mem.readCell addr.toNat).toNat →
    exec (.rmem (.reg r) b) s = .next { s with pc := s.pc + 3, regs := s.regs.set r v }) ∧
  (∀ (s : State) (r q : Fin 8) (b : Operand) (addr : Value), s.valueOf b = some addr →
    (s.mem.readCell addr.toNat).toNat = 32768 + q.val →
    exec (.rmem (.reg r) b) s = .next { s with pc := s.pc + 3, regs := s.regs.set r (s.getReg q) }) ∧
  (∀ (s : State) (a : Operand) (w : Word),
    exec (.rmem a (.invalid w)) s = .next (s.faultAt 3 .invalidAddress w)) ∧
  (∀ (s : State) (a b : Operand) (addr : Value), s.valueOf b = some addr →
    32776 ≤ (s.mem.readCell addr.toNat).toNat →
    exec (.rmem a b) s = .next (s.faultAt 3 .invalidAddress (s.mem.readCell addr.toNat))) ∧
  (∀ (s : State) (a b : Operand) (addr : Value), s.valueOf b = some addr →
    (s.mem.readCell addr.toNat).toNat ≤ 32775 → a.isReg = false →
    exec (.rmem a b) s = .next (s.faultAt 3 .invalidRegister a.word))

/-- wmem: the cell at the value of a becomes the value of b, no other cell and no register changes; either fault leaves memory
unchanged (R161). -/
def Obligations.WmemRule : Prop :=
  (∀ (s : State) (a b : Operand) (addr v : Value), s.valueOf a = some addr → s.valueOf b = some v →
    ∃ m : Memory, exec (.wmem a b) s = .next { s with pc := s.pc + 3, mem := m } ∧
      (m.readCell addr.toNat).toNat = v.toNat ∧
      ∀ x : Nat, x ≠ addr.toNat → m.readCell x = s.mem.readCell x) ∧
  (∀ (s : State) (b : Operand) (w : Word),
    exec (.wmem (.invalid w) b) s = .next (s.faultAt 3 .invalidAddress w)) ∧
  (∀ (s : State) (a : Operand) (addr : Value) (w : Word), s.valueOf a = some addr →
    exec (.wmem a (.invalid w)) s = .next (s.faultAt 3 .invalidAddress w))

/-- call: A + 2 becomes the new top and the pc the value of a. That the push precedes the target's resolution, so that
InvalidAddress finds it done, is the spec's decision D9. With a finite STACK_DEPTH a full stack is StackOverflow before
anything else. -/
def Obligations.CallRule : Prop :=
  (∀ (s : State) (a : Operand) (va : Value) (t : Word), s.valueOf a = some va → t.toNat = va.toNat →
    exec (.call a) s = .next { s with pc := t, stack := s.stack ++ [s.pc + 2] }) ∧
  (∀ (s : State) (w : Word), exec (.call (.invalid w)) s
    = .next (State.faultAt { s with stack := s.stack ++ [s.pc + 2] } 2 .invalidAddress w)) ∧
  (∀ (s : State) (a : Operand),
    callWithDepth (some s.stack.length) a s = .ended (s.faultAt 2 .stackOverflow 0))

/-- ret: the top entry is removed and becomes the pc, whatever it is; the empty stack halts exactly as opcode 0. That an entry
of 32768 faults only at the next fetch is the spec's decision D4. -/
def Obligations.RetRule : Prop :=
  (∀ (s : State) (below : List Word) (t : Word), s.stack = below ++ [t] →
    exec .ret s = .next { s with pc := t, stack := below }) ∧
  (∀ s : State, s.stack = [] → exec .ret s = .next s.haltedAfter)

/-- out: the value of a is one event of the OUT stream; InvalidAddress sends nothing. That all 15 bits are sent is the spec's
decision D11. -/
def Obligations.OutRule : Prop :=
  (∀ (s : State) (a : Operand) (va : Value), s.valueOf a = some va →
    exec (.out a) s = .next { s with pc := s.pc + 2, outStream := s.outStream ++ [va] }) ∧
  (∀ (s : State) (w : Word), exec (.out (.invalid w)) s = .next (s.faultAt 2 .invalidAddress w))

/-- in: the first code of the buffer, or of a line the host answers with and code 10 after it, goes to the destination; it is
consumed even when the destination faults; a closed input is InputExhausted. The line terminator 10, the fault at a closed
input and the precedence of the character are the spec's decisions D13, D15 and D6; that the host's answer is the head of
inPort is the model's choice (log entry 2). -/
def Obligations.InRule : Prop :=
  (∀ (s : State) (r : Fin 8) (c : Value) (rest : List Value), s.pending = c :: rest →
    exec (.in_ (.reg r)) s = .next { s with pc := s.pc + 2, pending := rest, regs := s.regs.set r c }) ∧
  (∀ (s : State) (r : Fin 8) (c : Value) (l rest : List Value) (later : List HostAnswer),
    s.pending = [] → s.inPort = .line l :: later → l ++ [10] = c :: rest →
    exec (.in_ (.reg r)) s
      = .next { s with pc := s.pc + 2, pending := rest, inPort := later, regs := s.regs.set r c }) ∧
  (∀ (s : State) (a : Operand) (c : Value) (rest : List Value), s.pending = c :: rest → a.isReg = false →
    exec (.in_ a) s = .next (State.faultAt { s with pending := rest } 2 .invalidRegister a.word)) ∧
  (∀ (s : State) (a : Operand) (c : Value) (l rest : List Value) (later : List HostAnswer),
    s.pending = [] → s.inPort = .line l :: later → l ++ [10] = c :: rest → a.isReg = false →
    exec (.in_ a) s
      = .next (State.faultAt { s with pending := rest, inPort := later } 2 .invalidRegister a.word)) ∧
  (∀ (s : State) (a : Operand) (later : List HostAnswer), s.pending = [] → s.inPort = .closed :: later →
    exec (.in_ a) s = .next (s.faultAt 2 .inputExhausted 0))

/-- in waits: while the host has offered nothing yet no machine state changes and the status stays Running; a second answer is
taken by the next step. That a waiting in has not begun is the model's choice, which D21 allows (log entry 3). -/
def Obligations.InWaitsForTheHost : Prop :=
  (∀ (s : State) (a : Operand), s.pending = [] → s.inPort = [] → exec (.in_ a) s = .next s) ∧
  (∀ (s : State) (a : Operand) (later : List HostAnswer), s.pending = [] → s.inPort = .nothingYet :: later →
    exec (.in_ a) s = .next { s with inPort := later })

/-! ### Frames -/

/-- Registers: whatever an instruction does, fault or not, only the register its destination operand names can change
(10_state.md R21, the twelve instructions with a destination). -/
def Obligations.OnlyTheDestinationRegisterChanges : Prop :=
  ∀ (i : Instr) (s t : State) (q : Fin 8), exec i s = .next t → i.destination ≠ some (.reg q) →
    t.getReg q = s.getReg q

/-- Memory, for every instruction but wmem: every byte reads as before (45_rmem_wmem.md, wmem is the only instruction that
changes memory). -/
def Obligations.OnlyWmemChangesMemory : Prop :=
  ∀ (i : Instr) (s t : State), exec i s = .next t → (∀ a b : Operand, i ≠ .wmem a b) →
    ∀ x : Nat, t.mem.readByte x = s.mem.readByte x

/-- Memory, for wmem: every byte outside the two of the addressed cell reads as before, and every byte when the address operand
has no value (R161). -/
def Obligations.WmemChangesOneCell : Prop :=
  ∀ (s t : State) (a b : Operand), exec (.wmem a b) s = .next t →
    (∀ addr : Value, s.valueOf a = some addr →
      ∀ x : Nat, x ≠ 2 * addr.toNat → x ≠ 2 * addr.toNat + 1 → t.mem.readByte x = s.mem.readByte x) ∧
    (s.valueOf a = none → ∀ x : Nat, t.mem.readByte x = s.mem.readByte x)

/-- The stack changes by push, pop, call and ret alone (10_state.md R26, 20_memory.md R56). -/
def Obligations.OnlyStackInstructionsChangeTheStack : Prop :=
  ∀ (i : Instr) (s t : State), exec i s = .next t → (∀ a : Operand, i ≠ .push a) → (∀ a : Operand, i ≠ .pop a) →
    (∀ a : Operand, i ≠ .call a) → i ≠ .ret → t.stack = s.stack

/-- The line buffer changes by in alone, and the host is asked for a line by in alone, only when the buffer is empty
(47_out_in.md R184). -/
def Obligations.OnlyInUsesTheTransceiver : Prop :=
  (∀ (i : Instr) (s t : State), exec i s = .next t → (∀ a : Operand, i ≠ .in_ a) →
    t.pending = s.pending ∧ t.inPort = s.inPort) ∧
  (∀ (a : Operand) (s t : State), exec (.in_ a) s = .next t → s.pending ≠ [] → t.inPort = s.inPort)

/-- The OUT stream only ever grows at its end, by at most one event, and by out alone (10_state.md R33). -/
def Obligations.OutputGrowsByOutAlone : Prop :=
  ∀ (i : Instr) (s t : State), exec i s = .next t →
    t.outStream = s.outStream ∨
    ∃ (a : Operand) (v : Value), i = .out a ∧ s.valueOf a = some v ∧ t.outStream = s.outStream ++ [v]

/-- The pc of an instruction that is no jump, call, ret or in is past its words whatever it does, fault or not
(10_state.md R22, 30_encoding.md R73). -/
def Obligations.OnlyJumpsAssignThePc : Prop :=
  ∀ (i : Instr) (s t : State), exec i s = .next t → (∀ a : Operand, i ≠ .jmp a) → (∀ a b : Operand, i ≠ .jt a b) →
    (∀ a b : Operand, i ≠ .jf a b) → (∀ a : Operand, i ≠ .call a) → i ≠ .ret → (∀ a : Operand, i ≠ .in_ a) →
    t.pc = s.pc + BitVec.ofNat 16 i.length

/-! ### The whole machine -/

/-- A running machine that goes on has dumped nothing, one that ends dumps exactly once, the final pc and registers, as its last
action; it ends Halted only by halt or by ret on the empty stack; and no instruction raises LoadError or, on this hardware,
StackOverflow (10_state.md R35, 60_exceptions.md R207, R210, R212, R213). -/
def Obligations.RunEndsWithOneDump : Prop :=
  ∀ (i : Instr) (s t : State), s.status = .running → exec i s = .next t →
    (t.status = .running ∧ t.diagStream = s.diagStream) ∨
    (t.diagStream = s.diagStream ++ [⟨t.pc, t.regs⟩] ∧
      ((t.status = .halted ∧ (i = .halt ∨ (i = .ret ∧ s.stack = []))) ∨
       ∃ (cause : Fault) (info : Word), t.status = .faulted cause info ∧ cause ≠ .loadError ∧ cause ≠ .stackOverflow))

/-- Precision: an instruction other than pop, in and call that faults leaves everything but pc, dump and status as it was
(60_exceptions.md R214). -/
def Obligations.FaultsArePrecise : Prop :=
  ∀ (i : Instr) (s t : State) (cause : Fault) (info : Word), s.status = .running → exec i s = .next t →
    t.status = .faulted cause info → (∀ a : Operand, i ≠ .pop a) → (∀ a : Operand, i ≠ .in_ a) →
    (∀ a : Operand, i ≠ .call a) → t = s.faultAt (BitVec.ofNat 16 i.length) cause info

/-- A cell that any instruction changes ends below 32768: no instruction puts a register reference or an invalid word into
memory (10_state.md R41). -/
def Obligations.ChangedCellsHoldValues : Prop :=
  ∀ (i : Instr) (s t : State) (x : Nat), exec i s = .next t → t.mem.readCell x ≠ s.mem.readCell x →
    (t.mem.readCell x).toNat ≤ 32767

/-- Fetch is coherent with stores at once: the cell a wmem wrote is the first word the next fetch reads there
(20_memory.md R62). -/
def Obligations.NextFetchSeesTheStore : Prop :=
  ∀ (s : State) (a b : Operand) (addr v : Value), s.valueOf a = some addr → s.valueOf b = some v →
    s.pc.toNat + 3 = addr.toNat →
    ∃ t : State, exec (.wmem a b) s = .next t ∧ t.codeWords.head? = some (widen v)

/-- A call and the ret after it come back to the instruction after the call, with the stack as it was (46_call_ret.md). -/
def Obligations.CallThenRetReturns : Prop :=
  ∀ (s : State) (a : Operand) (va : Value), s.valueOf a = some va →
    ∃ t : State, exec (.call a) s = .next t ∧ exec .ret t = .next { s with pc := s.pc + 2 }

/-- Isolation from the host: what it will answer changes nothing that any instruction but in does, and nothing in does while
the buffer is not empty (10_state.md R38, 60_exceptions.md R216). The answers are the model's script (log entry 2). -/
def Obligations.HostAnswersReachOnlyAnAskingIn : Prop :=
  ∀ (i : Instr) (s t : State) (answers : List HostAnswer), (∀ a : Operand, i = .in_ a → s.pending ≠ []) →
    exec i s = .next t → exec i { s with inPort := answers } = .next { t with inPort := answers }

/-- Every step keeps the invariant: memory canonical, pc and stack entries at most 32768, one core dump at the end
(10_state.md R35, R41). -/
def Obligations.StepKeepsTheInvariant : Prop :=
  ∀ s t : State, s.inv = true → step s = .next t → t.inv = true

/-- The invariant holds after reset with any image, well-formed or, whatever the undefined state holds that meets its first
three parts, not. -/
def Obligations.LoadMeetsTheInvariant : Prop :=
  State.reset.inv = true ∧
  ∀ (u : State) (image : List Byte), u.inv = true → (State.load u image).inv = true
end

