-- ==== Sys2Proof/Laws/Decode.lean ====
section
/-! SUPPORT. The small facts of the encoding: bytes and words, operand classes, the opcode map. -/

namespace Sys2Proof

/-- A word is made of its two bytes. -/
theorem wordOfBytes_low_high (w : Word) : wordOfBytes (lowByte w) (highByte w) = w := by
  apply BitVec.eq_of_toNat_eq
  have := w.isLt
  simp [wordOfBytes, lowByte, highByte]
  omega

theorem lowByte_wordOfBytes (lo hi : Byte) : lowByte (wordOfBytes lo hi) = lo := by
  apply BitVec.eq_of_toNat_eq
  have := lo.isLt
  have := hi.isLt
  simp [wordOfBytes, lowByte]
  omega

theorem highByte_wordOfBytes (lo hi : Byte) : highByte (wordOfBytes lo hi) = hi := by
  apply BitVec.eq_of_toNat_eq
  have := lo.isLt
  have := hi.isLt
  simp [wordOfBytes, highByte]
  omega

theorem wordsOfBytes_bytesOfWords (ws : List Word) : wordsOfBytes (bytesOfWords ws) = ws := by
  induction ws with
  | nil => rfl
  | cons w rest ih => simp [bytesOfWords, wordsOfBytes, wordOfBytes_low_high, ih]

@[simp] theorem widen_toNat (v : Value) : (widen v).toNat = v.toNat := by
  have := v.isLt
  simp [widen]
  omega

theorem Operand.ofWord_of_literal (w : Word) (h : w.toNat < 32768) : Operand.ofWord w = .lit (BitVec.ofNat 15 w.toNat) := by
  simp [Operand.ofWord, Config.regBase, h]

theorem Operand.ofWord_of_register (w : Word) (h : 32768 ≤ w.toNat) (h' : w.toNat ≤ 32775) :
    Operand.ofWord w = .reg (Fin.ofNat 8 w.toNat) := by
  have : ¬ w.toNat < 32768 := by omega
  simp [Operand.ofWord, Config.regBase, Config.regTop, this, h']

theorem Operand.ofWord_of_invalid (w : Word) (h : 32776 ≤ w.toNat) : Operand.ofWord w = .invalid w := by
  have : ¬ w.toNat < 32768 := by omega
  have : ¬ w.toNat ≤ 32775 := by omega
  simp [Operand.ofWord, Config.regBase, Config.regTop, *]

/-- A value stored is its own resolution. -/
@[simp] theorem Operand.ofWord_widen (v : Value) : Operand.ofWord (widen v) = .lit v := by
  have := v.isLt
  rw [Operand.ofWord_of_literal _ (by simp; omega)]
  simp

theorem Operand.word_ofWord (w : Word) : (Operand.ofWord w).word = w := by
  apply BitVec.eq_of_toNat_eq
  have := w.isLt
  by_cases h : w.toNat < 32768
  · rw [ofWord_of_literal w h]
    simp [Operand.word]
    omega
  · by_cases h' : w.toNat ≤ 32775
    · rw [ofWord_of_register w (by omega) h']
      simp [Operand.word, Config.regBase]
      omega
    · rw [ofWord_of_invalid w (by omega)]
      rfl

theorem Operand.wf_ofWord (w : Word) : (Operand.ofWord w).wf = true := by
  by_cases h : w.toNat < 32768
  · simp [ofWord_of_literal w h, Operand.wf]
  · by_cases h' : w.toNat ≤ 32775
    · simp [ofWord_of_register w (by omega) h', Operand.wf]
    · simp [ofWord_of_invalid w (by omega), Operand.wf]
      omega

theorem Operand.ofWord_word (o : Operand) (h : o.wf = true) : Operand.ofWord o.word = o := by
  cases o with
  | lit v => simp [Operand.word]
  | reg r =>
    have := r.isLt
    rw [ofWord_of_register _ (by simp [Operand.word, Config.regBase]; omega) (by simp [Operand.word, Config.regBase]; omega)]
    congr 1
    apply Fin.ext
    simp [Operand.word, Config.regBase]
    omega
  | invalid w =>
    simp only [Operand.wf, decide_eq_true_eq] at h
    exact ofWord_of_invalid w h

/-- No opcode word above 21 has a shape. -/
theorem shapeOf_eq_none (op : Word) (h : 22 ≤ op.toNat) : shapeOf op = none := by
  unfold shapeOf
  split <;> simp_all

/-- Every opcode word up to 21 has one. -/
theorem shapeOf_isSome (op : Word) (h : op.toNat ≤ 21) : (shapeOf op).isSome = true := by
  unfold shapeOf
  split <;> simp_all
  omega

/-- An instruction with this shape, given its operands, has the shape's opcode word. -/
def Shape.build (sh : Shape) (a b c : Operand) : Instr :=
  match sh with
  | .zero i => i
  | .one f => f a
  | .two f => f a b
  | .three f => f a b c

theorem opcode_build (op : Word) (sh : Shape) (h : shapeOf op = some sh) (a b c : Operand) :
    (sh.build a b c).opcode = op := by
  unfold shapeOf at h
  split at h <;> simp only [Option.some.injEq, reduceCtorEq] at h <;> subst h <;> apply BitVec.eq_of_toNat_eq <;>
    simp_all [Shape.build, Instr.opcode]

/-- The length a shape gives its instruction. -/
def Shape.words : Shape → Nat
  | .zero _ => 1
  | .one _ => 2
  | .two _ => 3
  | .three _ => 4

/-- The opcode word alone fixes the length (30_encoding.md R84). -/
theorem length_build (op : Word) (sh : Shape) (h : shapeOf op = some sh) (a b c : Operand) :
    (sh.build a b c).length = sh.words := by
  unfold shapeOf at h
  split at h <;> simp only [Option.some.injEq, reduceCtorEq] at h <;> subst h <;> rfl

end Sys2Proof
end

