-- ==== Sys2Proof/Laws/State.lean ====
section
/-! SUPPORT. What every update of the state leaves in every field, one lemma per field per update. -/

namespace Sys2Proof.Machine

variable (s : State)

/-! ### setReg -/

@[simp] theorem State.setReg_mem (r : Fin 8) (v : Value) : (s.setReg r v).mem = s.mem := rfl
@[simp] theorem State.setReg_regs (r : Fin 8) (v : Value) : (s.setReg r v).regs = s.regs.set r v := rfl
@[simp] theorem State.setReg_pc (r : Fin 8) (v : Value) : (s.setReg r v).pc = s.pc := rfl
@[simp] theorem State.setReg_stack (r : Fin 8) (v : Value) : (s.setReg r v).stack = s.stack := rfl
@[simp] theorem State.setReg_pending (r : Fin 8) (v : Value) : (s.setReg r v).pending = s.pending := rfl
@[simp] theorem State.setReg_status (r : Fin 8) (v : Value) : (s.setReg r v).status = s.status := rfl
@[simp] theorem State.setReg_outStream (r : Fin 8) (v : Value) : (s.setReg r v).outStream = s.outStream := rfl
@[simp] theorem State.setReg_diagStream (r : Fin 8) (v : Value) : (s.setReg r v).diagStream = s.diagStream := rfl
@[simp] theorem State.setReg_inPort (r : Fin 8) (v : Value) : (s.setReg r v).inPort = s.inPort := rfl

/-! ### past -/

@[simp] theorem State.past_mem (n : Nat) : (s.past n).mem = s.mem := rfl
@[simp] theorem State.past_regs (n : Nat) : (s.past n).regs = s.regs := rfl
@[simp] theorem State.past_pc (n : Nat) : (s.past n).pc = s.pc + BitVec.ofNat 16 n := rfl
@[simp] theorem State.past_stack (n : Nat) : (s.past n).stack = s.stack := rfl
@[simp] theorem State.past_pending (n : Nat) : (s.past n).pending = s.pending := rfl
@[simp] theorem State.past_status (n : Nat) : (s.past n).status = s.status := rfl
@[simp] theorem State.past_outStream (n : Nat) : (s.past n).outStream = s.outStream := rfl
@[simp] theorem State.past_diagStream (n : Nat) : (s.past n).diagStream = s.diagStream := rfl
@[simp] theorem State.past_inPort (n : Nat) : (s.past n).inPort = s.inPort := rfl

/-! ### jump -/

@[simp] theorem State.jump_mem (t : Word) : (s.jump t).mem = s.mem := rfl
@[simp] theorem State.jump_regs (t : Word) : (s.jump t).regs = s.regs := rfl
@[simp] theorem State.jump_pc (t : Word) : (s.jump t).pc = t := rfl
@[simp] theorem State.jump_stack (t : Word) : (s.jump t).stack = s.stack := rfl
@[simp] theorem State.jump_pending (t : Word) : (s.jump t).pending = s.pending := rfl
@[simp] theorem State.jump_status (t : Word) : (s.jump t).status = s.status := rfl
@[simp] theorem State.jump_outStream (t : Word) : (s.jump t).outStream = s.outStream := rfl
@[simp] theorem State.jump_diagStream (t : Word) : (s.jump t).diagStream = s.diagStream := rfl
@[simp] theorem State.jump_inPort (t : Word) : (s.jump t).inPort = s.inPort := rfl

/-! ### coreDump -/

@[simp] theorem coreDump_mem : (coreDump s).mem = s.mem := rfl
@[simp] theorem coreDump_regs : (coreDump s).regs = s.regs := rfl
@[simp] theorem coreDump_pc : (coreDump s).pc = s.pc := rfl
@[simp] theorem coreDump_stack : (coreDump s).stack = s.stack := rfl
@[simp] theorem coreDump_pending : (coreDump s).pending = s.pending := rfl
@[simp] theorem coreDump_status : (coreDump s).status = s.status := rfl
@[simp] theorem coreDump_outStream : (coreDump s).outStream = s.outStream := rfl
@[simp] theorem coreDump_diagStream : (coreDump s).diagStream = s.diagStream ++ [⟨s.pc, s.regs⟩] := rfl
@[simp] theorem coreDump_inPort : (coreDump s).inPort = s.inPort := rfl

/-! ### raise -/

@[simp] theorem raise_mem (cause : Fault) (info : Word) : (raise cause info s).mem = s.mem := rfl
@[simp] theorem raise_regs (cause : Fault) (info : Word) : (raise cause info s).regs = s.regs := rfl
@[simp] theorem raise_pc (cause : Fault) (info : Word) : (raise cause info s).pc = s.pc := rfl
@[simp] theorem raise_stack (cause : Fault) (info : Word) : (raise cause info s).stack = s.stack := rfl
@[simp] theorem raise_pending (cause : Fault) (info : Word) : (raise cause info s).pending = s.pending := rfl
@[simp] theorem raise_status (cause : Fault) (info : Word) : (raise cause info s).status = .faulted cause info := rfl
@[simp] theorem raise_outStream (cause : Fault) (info : Word) : (raise cause info s).outStream = s.outStream := rfl
@[simp] theorem raise_diagStream (cause : Fault) (info : Word) : (raise cause info s).diagStream = s.diagStream ++ [⟨s.pc, s.regs⟩] := rfl
@[simp] theorem raise_inPort (cause : Fault) (info : Word) : (raise cause info s).inPort = s.inPort := rfl

/-! ### haltMachine -/

@[simp] theorem haltMachine_mem : (haltMachine s).mem = s.mem := rfl
@[simp] theorem haltMachine_regs : (haltMachine s).regs = s.regs := rfl
@[simp] theorem haltMachine_pc : (haltMachine s).pc = s.pc := rfl
@[simp] theorem haltMachine_stack : (haltMachine s).stack = s.stack := rfl
@[simp] theorem haltMachine_pending : (haltMachine s).pending = s.pending := rfl
@[simp] theorem haltMachine_status : (haltMachine s).status = .halted := rfl
@[simp] theorem haltMachine_outStream : (haltMachine s).outStream = s.outStream := rfl
@[simp] theorem haltMachine_diagStream : (haltMachine s).diagStream = s.diagStream ++ [⟨s.pc, s.regs⟩] := rfl
@[simp] theorem haltMachine_inPort : (haltMachine s).inPort = s.inPort := rfl

/-! ### emitOut -/

@[simp] theorem emitOut_mem (c : Value) : (emitOut c s).mem = s.mem := rfl
@[simp] theorem emitOut_regs (c : Value) : (emitOut c s).regs = s.regs := rfl
@[simp] theorem emitOut_pc (c : Value) : (emitOut c s).pc = s.pc := rfl
@[simp] theorem emitOut_stack (c : Value) : (emitOut c s).stack = s.stack := rfl
@[simp] theorem emitOut_pending (c : Value) : (emitOut c s).pending = s.pending := rfl
@[simp] theorem emitOut_status (c : Value) : (emitOut c s).status = s.status := rfl
@[simp] theorem emitOut_outStream (c : Value) : (emitOut c s).outStream = s.outStream ++ [c] := rfl
@[simp] theorem emitOut_diagStream (c : Value) : (emitOut c s).diagStream = s.diagStream := rfl
@[simp] theorem emitOut_inPort (c : Value) : (emitOut c s).inPort = s.inPort := rfl

/-! ### Registers -/

theorem State.getReg_setReg_self (r : Fin 8) (v : Value) : (s.setReg r v).getReg r = v := by
  simp [State.getReg]

theorem State.getReg_setReg_ne (r q : Fin 8) (v : Value) (h : q ≠ r) : (s.setReg r v).getReg q = s.getReg q := by
  have : r.val ≠ q.val := fun e => h (Fin.ext e.symm)
  simp [State.getReg, this]

@[simp] theorem State.getReg_past (n : Nat) (q : Fin 8) : (s.past n).getReg q = s.getReg q := rfl
@[simp] theorem State.getReg_jump (t : Word) (q : Fin 8) : (s.jump t).getReg q = s.getReg q := rfl
@[simp] theorem getReg_raise (cause : Fault) (info : Word) (q : Fin 8) : (raise cause info s).getReg q = s.getReg q := rfl
@[simp] theorem getReg_haltMachine (q : Fin 8) : (haltMachine s).getReg q = s.getReg q := rfl
@[simp] theorem getReg_emitOut (c : Value) (q : Fin 8) : (emitOut c s).getReg q = s.getReg q := rfl

/-- Moving past words twice is moving past their sum. -/
theorem State.past_past (m n : Nat) : (s.past m).past n = s.past (m + n) := by
  simp [State.past, BitVec.add_assoc, BitVec.ofNat_add]

end Sys2Proof.Machine
end

