-- ==== Sys2Proof/Laws/Ops.lean ====
section
/-! SUPPORT. Everything each shared operation can do, said once: the provers cite these instead of unfolding. -/

namespace Sys2Proof.Machine

/-! ### Sequencing -/

@[simp] theorem Res.andThen_ok {α β : Type} (v : α) (s : State) (k : α → State → Res β) :
    (Res.ok v s).andThen k = k v s := rfl

@[simp] theorem Res.andThen_ended {α β : Type} (s : State) (k : α → State → Res β) :
    (Res.ended s).andThen k = .ended s := rfl

@[simp] theorem finish_ok (s : State) : finish (.ok () s) = .next s := rfl

@[simp] theorem finish_ended (s : State) : finish (.ended s) = .next s := rfl

theorem Res.andThen_eq_ok {α β : Type} {r : Res α} {k : α → State → Res β} {b : β} {t : State}
    (h : r.andThen k = .ok b t) : ∃ a u, r = .ok a u ∧ k a u = .ok b t := by
  cases r with
  | ok a u => exact ⟨a, u, rfl, h⟩
  | ended u => cases h

theorem Res.andThen_eq_ended {α β : Type} {r : Res α} {k : α → State → Res β} {t : State}
    (h : r.andThen k = .ended t) : r = .ended t ∨ ∃ a u, r = .ok a u ∧ k a u = .ended t := by
  cases r with
  | ok a u => exact .inr ⟨a, u, rfl, h⟩
  | ended u => cases h; exact .inl rfl

/-- An action finishes in a next state, its own or that of the run it ended. -/
theorem finish_eq_next {r : Res Unit} {t : State} (h : finish r = .next t) : r = .ok () t ∨ r = .ended t := by
  cases r with
  | ok v u => exact .inl (congrArg (Res.ok ()) (by simpa [finish] using h))
  | ended u => exact .inr (congrArg Res.ended (by simpa [finish] using h))

/-- The state a result stands in, whether the run goes on from it or ended in it. -/
def Res.after {α : Type} : Res α → State
  | .ok _ s => s
  | .ended s => s

theorem finish_eq (r : Res Unit) : finish r = .next r.after := by cases r <;> rfl

/-- What holds wherever the first part ends the run, and wherever the second part leads from its result, holds after both. -/
theorem Res.after_andThen {α β : Type} (Q : State → Prop) (r : Res α) (k : α → State → Res β)
    (hr : ∀ t, r = .ended t → Q t) (hk : ∀ v u, r = .ok v u → Q (k v u).after) : Q (r.andThen k).after := by
  cases r with
  | ok v u => exact hk v u rfl
  | ended u => exact hr u rfl

/-! ### Operands -/

/-- Resolve changes nothing, and faults on the invalid class alone. -/
theorem resolve_eq_ok {o : Operand} {s t : State} {v : Value} (h : resolve o s = .ok v t) :
    t = s ∧ (o = .lit v ∨ ∃ r, o = .reg r ∧ s.getReg r = v) := by
  cases o with
  | lit w => cases h; exact ⟨rfl, .inl rfl⟩
  | reg r => cases h; exact ⟨rfl, .inr ⟨r, rfl, rfl⟩⟩
  | invalid w => cases h

theorem resolve_eq_ended {o : Operand} {s t : State} (h : resolve o s = .ended t) :
    ∃ w, o = .invalid w ∧ t = raise .invalidAddress w s := by
  cases o with
  | lit w => cases h
  | reg r => cases h
  | invalid w => cases h; exact ⟨w, rfl, rfl⟩

/-- Store of a value: one register written, or the fault on the destination. -/
theorem store_widen (dest : Operand) (v : Value) (s : State) :
    store dest (widen v) s =
      match dest with
      | .reg r => .ok () (s.setReg r v)
      | .lit _ => .ended (raise .invalidRegister dest.word s)
      | .invalid _ => .ended (raise .invalidRegister dest.word s) := by
  cases dest <;> simp [store, resolve]

/-- Store writes the destination register and nothing else. -/
theorem store_eq_ok {dest : Operand} {w : Word} {s t : State} {u : Unit} (h : store dest w s = .ok u t) :
    ∃ r v, dest = .reg r ∧ resolve (.ofWord w) s = .ok v s ∧ t = s.setReg r v := by
  obtain ⟨v, s', hv, hd⟩ := Res.andThen_eq_ok h
  obtain ⟨rfl, -⟩ := resolve_eq_ok hv
  cases dest with
  | reg r => cases hd; exact ⟨r, v, rfl, hv, rfl⟩
  | lit _ => cases hd
  | invalid _ => cases hd

/-- Store faults on the value, or else on the destination, and changes nothing before it does. -/
theorem store_eq_ended {dest : Operand} {w : Word} {s t : State} (h : store dest w s = .ended t) :
    t = raise .invalidAddress w s ∨ t = raise .invalidRegister dest.word s := by
  rcases Res.andThen_eq_ended h with hv | ⟨v, s', hv, hd⟩
  · obtain ⟨w', hw, rfl⟩ := resolve_eq_ended hv
    left
    have := Operand.word_ofWord w
    rw [hw] at this
    simp only [Operand.word] at this
    rw [this]
  · obtain ⟨rfl, -⟩ := resolve_eq_ok hv
    cases dest with
    | reg r => cases hd
    | lit _ => cases hd; exact .inr rfl
    | invalid _ => cases hd; exact .inr rfl

/-- A raw word that holds a value is that literal. -/
theorem Operand.ofWord_eq_lit (w : Word) (v : Value) (h : v.toNat = w.toNat) : Operand.ofWord w = .lit v := by
  have := v.isLt
  rw [Operand.ofWord_of_literal w (by omega), ← h]
  simp

/-- A raw word 32768 + r is the reference to register r. -/
theorem Operand.ofWord_eq_reg (w : Word) (r : Fin 8) (h : w.toNat = 32768 + r.val) : Operand.ofWord w = .reg r := by
  have := r.isLt
  rw [Operand.ofWord_of_register w (by omega) (by omega)]
  congr 1
  apply Fin.ext
  simp
  omega

theorem store_reg (r : Fin 8) (w : Word) (v : Value) (s : State) (h : resolve (.ofWord w) s = .ok v s) :
    store (.reg r) w s = .ok () (s.setReg r v) := by
  simp [store, h]

/-- A stored word of the invalid class faults whatever the destination is. -/
theorem store_invalid (a : Operand) (w : Word) (s : State) (h : 32776 ≤ w.toNat) :
    store a w s = .ended (raise .invalidAddress w s) := by
  simp [store, Operand.ofWord_of_invalid w h, resolve]

/-! ### Stack -/

/-- Push on the unbounded stack never fails. -/
@[simp] theorem push_none (v : Word) (s : State) : push none v s = .ok () { s with stack := s.stack ++ [v] } := by
  simp [push]

theorem push_full (v : Word) (s : State) : push (some s.stack.length) v s = .ended (raise .stackOverflow 0 s) := by
  simp [push]

theorem pop_empty (s : State) (h : s.stack = []) : pop s = .ended (raise .stackUnderflow 0 s) := by
  simp [pop, h]

theorem pop_append (s : State) (below : List Word) (v : Word) (h : s.stack = below ++ [v]) :
    pop s = .ok v { s with stack := below } := by
  simp [pop, h]

theorem pop_eq_ok {s t : State} {v : Word} (h : pop s = .ok v t) :
    ∃ below, s.stack = below ++ [v] ∧ t = { s with stack := below } := by
  unfold pop at h
  split at h
  · cases h
  · rename_i w hw
    cases h
    obtain ⟨below, hb⟩ := List.getLast?_eq_some_iff.mp hw
    exact ⟨below, hb, by simp [hb]⟩

theorem pop_eq_ended {s t : State} (h : pop s = .ended t) : s.stack = [] ∧ t = raise .stackUnderflow 0 s := by
  unfold pop at h
  split at h
  · rename_i hw
    cases h
    exact ⟨by simpa using hw, rfl⟩
  · cases h

/-! ### The transceiver -/

/-- A character comes from the buffer, or from the line the host answers with. -/
theorem takeChar_eq_some {s t : State} {c : Value} (h : takeChar s = .ok (some c) t) :
    (∃ rest, s.pending = c :: rest ∧ t = { s with pending := rest }) ∨
    (s.pending = [] ∧ ∃ l later rest, s.inPort = .line l :: later ∧ l ++ [lineTerminator] = c :: rest ∧
      t = { s with pending := rest, inPort := later }) := by
  unfold takeChar at h
  split at h
  · rename_i d rest hp
    cases h
    exact .inl ⟨rest, hp, rfl⟩
  · rename_i hp
    refine .inr ⟨hp, ?_⟩
    split at h
    · cases h
    · cases h
    · cases h
    · rename_i l later hl
      refine ⟨l, later, (l ++ [lineTerminator]).tail, hl, ?_, ?_⟩
      · cases h
        cases l <;> rfl
      · cases h
        rfl

/-- Waiting changes nothing but the host's next answer. -/
theorem takeChar_eq_none {s t : State} (h : takeChar s = .ok none t) :
    s.pending = [] ∧ ((s.inPort = [] ∧ t = s) ∨ ∃ later, s.inPort = .nothingYet :: later ∧ t = { s with inPort := later }) := by
  unfold takeChar at h
  split at h
  · cases h
  · rename_i hp
    refine ⟨hp, ?_⟩
    split at h
    · rename_i hi
      cases h
      exact .inl ⟨hi, rfl⟩
    · rename_i later hi
      cases h
      exact .inr ⟨later, hi, rfl⟩
    · cases h
    · cases h

theorem takeChar_eq_ended {s t : State} (h : takeChar s = .ended t) :
    s.pending = [] ∧ (∃ later, s.inPort = .closed :: later) ∧ t = raise .inputExhausted 0 s := by
  unfold takeChar at h
  split at h
  · cases h
  · rename_i hp
    refine ⟨hp, ?_⟩
    split at h
    · cases h
    · cases h
    · rename_i later hi
      cases h
      exact ⟨⟨later, hi⟩, rfl⟩
    · cases h

/-- Taking or awaiting a character changes the buffer and the host's answers alone. -/
theorem takeChar_frame {s t : State} {c : Option Value} (h : takeChar s = .ok c t) :
    t = { s with pending := t.pending, inPort := t.inPort } := by
  cases c with
  | none =>
    obtain ⟨-, ⟨-, rfl⟩ | ⟨later, -, rfl⟩⟩ := takeChar_eq_none h
    · rfl
    · rfl
  | some c =>
    rcases takeChar_eq_some h with ⟨rest, -, rfl⟩ | ⟨-, l, later, rest, -, -, rfl⟩
    · rfl
    · rfl

/-- The next code of the buffer, or of the line the host answers with and the terminator after it. -/
theorem takeChar_pending (s : State) (c : Value) (rest : List Value) (h : s.pending = c :: rest) :
    takeChar s = .ok (some c) { s with pending := rest } := by
  simp [takeChar, h]

theorem takeChar_line (s : State) (c : Value) (l rest : List Value) (later : List HostAnswer) (h : s.pending = [])
    (hi : s.inPort = .line l :: later) (hl : l ++ [lineTerminator] = c :: rest) :
    takeChar s = .ok (some c) { s with pending := rest, inPort := later } := by
  simp only [takeChar, h, hi, hl]
  rfl

/-! ### Fetching -/

theorem fetchCell_of_lt (s : State) (h : s.pc.toNat < 32768) : fetchCell s = .ok (s.mem.readCell s.pc.toNat) (s.past 1) := by
  simp [fetchCell, Config.memWords, show ¬ 32768 ≤ s.pc.toNat by omega]

theorem fetchCell_of_ge (s : State) (h : 32768 ≤ s.pc.toNat) : fetchCell s = .ended (raise .fetchOutOfRange s.pc s) := by
  simp [fetchCell, Config.memWords, h]

theorem fetchOperand_of_lt (s : State) (h : s.pc.toNat < 32768) :
    fetchOperand s = .ok (.ofWord (s.mem.readCell s.pc.toNat)) (s.past 1) := by
  simp [fetchOperand, fetchCell_of_lt s h]

theorem fetchOperand_of_ge (s : State) (h : 32768 ≤ s.pc.toNat) :
    fetchOperand s = .ended (raise .fetchOutOfRange s.pc s) := by
  simp [fetchOperand, fetchCell_of_ge s h]

theorem Memory.wordsFrom_of_lt (m : Memory) (a n : Nat) (h : a < 32768) :
    m.wordsFrom a (n + 1) = m.readCell a :: m.wordsFrom (a + 1) n := by
  simp [Memory.wordsFrom, Config.memWords, h]

theorem Memory.wordsFrom_of_ge (m : Memory) (a n : Nat) (h : 32768 ≤ a) : m.wordsFrom a n = [] := by
  cases n with
  | zero => rfl
  | succ n => simp [Memory.wordsFrom, Config.memWords, show ¬ a < 32768 by omega]

/-- Fetch reads the cell at the pc and moves the pc one further. -/
theorem fetchCell_eq_ok {s t : State} {w : Word} (h : fetchCell s = .ok w t) :
    s.pc.toNat < 32768 ∧ w = s.mem.readCell s.pc.toNat ∧ t = s.past 1 := by
  unfold fetchCell at h
  split at h
  · cases h
  · rename_i hp
    cases h
    exact ⟨by simpa [Config.memWords] using hp, rfl, rfl⟩

theorem fetchCell_eq_ended {s t : State} (h : fetchCell s = .ended t) :
    32768 ≤ s.pc.toNat ∧ t = raise .fetchOutOfRange s.pc s := by
  unfold fetchCell at h
  split at h
  · rename_i hp
    cases h
    exact ⟨hp, rfl⟩
  · cases h

theorem fetchOperand_eq_ok {s t : State} {o : Operand} (h : fetchOperand s = .ok o t) :
    s.pc.toNat < 32768 ∧ o = .ofWord (s.mem.readCell s.pc.toNat) ∧ t = s.past 1 := by
  obtain ⟨w, u, hw, ho⟩ := Res.andThen_eq_ok h
  obtain ⟨hp, rfl, rfl⟩ := fetchCell_eq_ok hw
  cases ho
  exact ⟨hp, rfl, rfl⟩

theorem fetchOperand_eq_ended {s t : State} (h : fetchOperand s = .ended t) :
    32768 ≤ s.pc.toNat ∧ t = raise .fetchOutOfRange s.pc s := by
  rcases Res.andThen_eq_ended h with hw | ⟨w, u, hw, ho⟩
  · exact fetchCell_eq_ended hw
  · cases ho

/-- Below the end of memory the pc counts up without wrapping. -/
theorem past_toNat (s : State) (n : Nat) (h : s.pc.toNat + n < 65536) : (s.past n).pc.toNat = s.pc.toNat + n := by
  simp [State.past]
  omega

/-- An instruction that is fetched whole lies in memory, and its fetches moved the pc past it and changed nothing else. -/
theorem fetchInstr_eq_ok {s t : State} {i : Instr} (h : fetchInstr s = .ok i t) :
    s.pc.toNat + i.length ≤ 32768 ∧ t = s.past i.length := by
  obtain ⟨op, u, hop, hk⟩ := Res.andThen_eq_ok h
  obtain ⟨hp, rfl, rfl⟩ := fetchCell_eq_ok hop
  have n1 := past_toNat s 1 (by omega)
  have n2 := past_toNat s 2 (by omega)
  have n3 := past_toNat s 3 (by omega)
  have len := length_build (s.mem.readCell s.pc.toNat)
  split at hk
  · cases hk
  · rename_i j hsh
    cases hk
    have := len _ hsh (.lit 0) (.lit 0) (.lit 0)
    simp only [Shape.build, Shape.words] at this
    rw [this]
    exact ⟨by omega, rfl⟩
  · rename_i f hsh
    obtain ⟨a, ua, ha, hk⟩ := Res.andThen_eq_ok hk
    obtain ⟨pa, ea, rfl⟩ := fetchOperand_eq_ok ha
    have := len _ hsh a (.lit 0) (.lit 0)
    simp only [Shape.build, Shape.words, State.past_past, Nat.reduceAdd] at *
    cases hk
    rw [this]
    exact ⟨by omega, rfl⟩
  · rename_i f hsh
    obtain ⟨a, ua, ha, hk⟩ := Res.andThen_eq_ok hk
    obtain ⟨pa, ea, rfl⟩ := fetchOperand_eq_ok ha
    obtain ⟨b, ub, hb, hk⟩ := Res.andThen_eq_ok hk
    obtain ⟨pb, eb, rfl⟩ := fetchOperand_eq_ok hb
    have := len _ hsh a b (.lit 0)
    simp only [Shape.build, Shape.words, State.past_past, Nat.reduceAdd] at *
    cases hk
    rw [this]
    exact ⟨by omega, rfl⟩
  · rename_i f hsh
    obtain ⟨a, ua, ha, hk⟩ := Res.andThen_eq_ok hk
    obtain ⟨pa, ea, rfl⟩ := fetchOperand_eq_ok ha
    obtain ⟨b, ub, hb, hk⟩ := Res.andThen_eq_ok hk
    obtain ⟨pb, eb, rfl⟩ := fetchOperand_eq_ok hb
    obtain ⟨c, uc, hc, hk⟩ := Res.andThen_eq_ok hk
    obtain ⟨pc, ec, rfl⟩ := fetchOperand_eq_ok hc
    have := len _ hsh a b c
    simp only [Shape.build, Shape.words, State.past_past, Nat.reduceAdd] at *
    cases hk
    rw [this]
    exact ⟨by omega, rfl⟩

/-- A fetch that ends the run is an unknown opcode, or reaches past the last cell; nothing but pc, dump and status
changes. -/
theorem fetchInstr_eq_ended {s t : State} (h : fetchInstr s = .ended t) :
    (∃ op, s.pc.toNat < 32768 ∧ t = raise .unknownOpcode op (s.past 1)) ∨
    ∃ n : Nat, (n = 0 ∨ s.pc.toNat + n = 32768) ∧ 32768 ≤ (s.past n).pc.toNat ∧
      t = raise .fetchOutOfRange (s.past n).pc (s.past n) := by
  rcases Res.andThen_eq_ended h with hop | ⟨op, u, hop, hk⟩
  · obtain ⟨hp, rfl⟩ := fetchCell_eq_ended hop
    have e : s.past 0 = s := by simp [State.past]
    exact .inr ⟨0, .inl rfl, by rw [e]; exact hp, by rw [e]⟩
  obtain ⟨hp, rfl, rfl⟩ := fetchCell_eq_ok hop
  have n1 := past_toNat s 1 (by omega)
  have n2 := past_toNat s 2 (by omega)
  have n3 := past_toNat s 3 (by omega)
  have ends : ∀ n : Nat, (s.past n).pc.toNat = s.pc.toNat + n → s.pc.toNat + n ≤ 32768 → 32768 ≤ (s.past n).pc.toNat →
      t = raise .fetchOutOfRange (s.past n).pc (s.past n) →
      ∃ n : Nat, (n = 0 ∨ s.pc.toNat + n = 32768) ∧ 32768 ≤ (s.past n).pc.toNat ∧
        t = raise .fetchOutOfRange (s.past n).pc (s.past n) :=
    fun n e hle hge ht => ⟨n, .inr (by omega), hge, ht⟩
  split at hk
  · cases hk
    exact .inl ⟨_, hp, rfl⟩
  · cases hk
  all_goals right
  · rcases Res.andThen_eq_ended hk with ha | ⟨a, ua, ha, hk⟩
    · obtain ⟨pa, rfl⟩ := fetchOperand_eq_ended ha
      exact ends 1 n1 (by omega) pa rfl
    · cases hk
  · rcases Res.andThen_eq_ended hk with ha | ⟨a, ua, ha, hk⟩
    · obtain ⟨pa, rfl⟩ := fetchOperand_eq_ended ha
      exact ends 1 n1 (by omega) pa rfl
    obtain ⟨pa, ea, rfl⟩ := fetchOperand_eq_ok ha
    simp only [State.past_past, Nat.reduceAdd] at *
    rcases Res.andThen_eq_ended hk with hb | ⟨b, ub, hb, hk⟩
    · obtain ⟨pb, rfl⟩ := fetchOperand_eq_ended hb
      exact ends 2 n2 (by omega) pb rfl
    · cases hk
  · rcases Res.andThen_eq_ended hk with ha | ⟨a, ua, ha, hk⟩
    · obtain ⟨pa, rfl⟩ := fetchOperand_eq_ended ha
      exact ends 1 n1 (by omega) pa rfl
    obtain ⟨pa, ea, rfl⟩ := fetchOperand_eq_ok ha
    simp only [State.past_past, Nat.reduceAdd] at *
    rcases Res.andThen_eq_ended hk with hb | ⟨b, ub, hb, hk⟩
    · obtain ⟨pb, rfl⟩ := fetchOperand_eq_ended hb
      exact ends 2 n2 (by omega) pb rfl
    obtain ⟨pb, eb, rfl⟩ := fetchOperand_eq_ok hb
    simp only [State.past_past, Nat.reduceAdd] at *
    rcases Res.andThen_eq_ended hk with hc | ⟨c, uc, hc, hk⟩
    · obtain ⟨pc, rfl⟩ := fetchOperand_eq_ended hc
      exact ends 3 n3 (by omega) pc rfl
    · cases hk

end Sys2Proof.Machine
end

