-- ==== Sys2Proof/Laws/Exec.lean ====
section
/-! SUPPORT. Everything an instruction can do, said once: every state exec answers is one of the effects below. -/

namespace Sys2Proof.Machine

/-- An operand that holds a value resolves to it, in any state with the same registers. -/
theorem resolve_of_valueOf {s u : State} {o : Operand} {v : Value} (h : s.valueOf o = some v) (hu : u.regs = s.regs) :
    resolve o u = .ok v u := by
  cases o with
  | lit w =>
    simp only [State.valueOf, Option.some.injEq] at h
    subst h
    rfl
  | reg r =>
    simp only [State.valueOf, Option.some.injEq] at h
    subst h
    simp [resolve, State.getReg, hu]
  | invalid w => cases h

/-- What resolves held that value. -/
theorem valueOf_of_resolve {o : Operand} {s t : State} {v : Value} (h : resolve o s = .ok v t) :
    t = s ∧ s.valueOf o = some v := by
  obtain ⟨rfl, rfl | ⟨r, rfl, rfl⟩⟩ := resolve_eq_ok h
  · exact ⟨rfl, rfl⟩
  · exact ⟨rfl, rfl⟩

/-- Storing a value where no register stands is the fault InvalidRegister. -/
theorem store_widen_of_not_reg {a : Operand} (h : a.isReg = false) (v : Value) (s : State) :
    store a (widen v) s = .ended (raise .invalidRegister a.word s) := by
  cases a <;> simp_all [store_widen, Operand.isReg]

/-- What an instruction at the pc of s can do. The fault of `fault` is one of an action before it changed anything. -/
inductive Effect (s : State) : Instr → State → Prop where
  | fault (i : Instr) (cause : Fault) (info : Word) : cause ≠ .loadError → cause ≠ .stackOverflow → i ≠ .halt → i ≠ .ret →
      Effect s i (raise cause info (s.past i.length))
  | wrote (i : Instr) (r : Fin 8) (v : Value) : i.destination = some (.reg r) → (∀ a, i ≠ .pop a) → (∀ a, i ≠ .in_ a) →
      Effect s i ((s.past i.length).setReg r v)
  | pushed (a : Operand) (v : Value) : s.valueOf a = some v →
      Effect s (.push a) { s.past 2 with stack := s.stack ++ [widen v] }
  | popped (r : Fin 8) (below : List Word) (e : Word) (v : Value) : s.stack = below ++ [e] →
      Effect s (.pop (.reg r)) (State.setReg { s.past 2 with stack := below } r v)
  | popFault (a : Operand) (below : List Word) (e : Word) (cause : Fault) (info : Word) : s.stack = below ++ [e] →
      (cause = .invalidAddress ∨ cause = .invalidRegister) →
      Effect s (.pop a) (raise cause info { s.past 2 with stack := below })
  | jumped (i : Instr) (v : Value) : ((∃ a, i = .jmp a) ∨ (∃ a b, i = .jt a b) ∨ ∃ a b, i = .jf a b) →
      Effect s i { s with pc := widen v }
  | passed (i : Instr) : (i = .noop ∨ (∃ a b, i = .jt a b) ∨ ∃ a b, i = .jf a b) → Effect s i (s.past i.length)
  | stored (a b : Operand) (addr v : Value) : s.valueOf a = some addr → s.valueOf b = some v →
      Effect s (.wmem a b) { s.past 3 with mem := s.mem.writeCell addr.toNat (widen v) }
  | called (a : Operand) (v : Value) : s.valueOf a = some v →
      Effect s (.call a) { s with pc := widen v, stack := s.stack ++ [s.pc + 2] }
  | callFault (w : Word) :
      Effect s (.call (.invalid w)) (raise .invalidAddress w { s.past 2 with stack := s.stack ++ [s.pc + 2] })
  | returned (below : List Word) (t : Word) : s.stack = below ++ [t] → Effect s .ret { s with pc := t, stack := below }
  | halted (i : Instr) : (i = .halt ∨ (i = .ret ∧ s.stack = [])) → Effect s i (haltMachine (s.past 1))
  | sent (a : Operand) (v : Value) : s.valueOf a = some v → Effect s (.out a) (emitOut v (s.past 2))
  | received (r : Fin 8) (c : Value) (u : State) : takeChar (s.past 2) = .ok (some c) u →
      Effect s (.in_ (.reg r)) (u.setReg r c)
  | receivedFault (a : Operand) (c : Value) (u : State) : takeChar (s.past 2) = .ok (some c) u →
      Effect s (.in_ a) (raise .invalidRegister a.word u)
  | waited (a : Operand) (u : State) : takeChar (s.past 2) = .ok none u → Effect s (.in_ a) { u with pc := s.pc }

/-- The effect of a value operand that does not resolve. -/
theorem Effect.of_resolve_ended {s t : State} {i : Instr} {o : Operand} (hh : i ≠ .halt) (hr : i ≠ .ret)
    (h : resolve o (s.past i.length) = .ended t) : Effect s i t := by
  obtain ⟨w, -, rfl⟩ := resolve_eq_ended h
  exact .fault i _ _ (by decide) (by decide) hh hr

/-- The effect of the Store that ends the action of set, eq, gt, the ALU and rmem. -/
theorem Effect.of_store {s : State} {i : Instr} {a : Operand} (w : Word) (hh : i ≠ .halt) (hr : i ≠ .ret)
    (hd : i.destination = some a) (hp : ∀ a, i ≠ .pop a) (hi : ∀ a, i ≠ .in_ a) :
    Effect s i (store a w (s.past i.length)).after := by
  cases h : store a w (s.past i.length) with
  | ok v t =>
    obtain ⟨r, v, rfl, -, rfl⟩ := store_eq_ok h
    exact .wrote i r v hd hp hi
  | ended t =>
    rcases store_eq_ended h with rfl | rfl
    · exact .fault i _ _ (by decide) (by decide) hh hr
    · exact .fault i _ _ (by decide) (by decide) hh hr

theorem Effect.of_binary {s : State} {i : Instr} {a : Operand} (f : Value → Value → Value) (b c : Operand)
    (hh : i ≠ .halt) (hr : i ≠ .ret) (hd : i.destination = some a) (hp : ∀ a, i ≠ .pop a) (hi : ∀ a, i ≠ .in_ a) :
    Effect s i (binary f a b c (s.past i.length)).after := by
  refine Res.after_andThen _ _ _ (fun t h => .of_resolve_ended hh hr h) fun vb u hb => ?_
  obtain ⟨rfl, -⟩ := valueOf_of_resolve hb
  refine Res.after_andThen _ _ _ (fun t h => .of_resolve_ended hh hr h) fun vc u hc => ?_
  obtain ⟨rfl, -⟩ := valueOf_of_resolve hc
  exact .of_store _ hh hr hd hp hi

theorem Effect.of_jumpTo {s : State} {i : Instr} (o : Operand) (hh : i ≠ .halt) (hr : i ≠ .ret)
    (hj : (∃ a, i = .jmp a) ∨ (∃ a b, i = .jt a b) ∨ ∃ a b, i = .jf a b) :
    Effect s i (jumpTo o (s.past i.length)).after := by
  refine Res.after_andThen _ _ _ (fun t h => .of_resolve_ended hh hr h) fun v u hv => ?_
  obtain ⟨rfl, -⟩ := valueOf_of_resolve hv
  exact .jumped i v hj

/-- Every instruction answers a next state, and it is one of its effects. -/
theorem exec_effect (i : Instr) (s : State) : ∃ t, exec i s = .next t ∧ Effect s i t := by
  cases i with
  | halt => exact ⟨_, rfl, .halted _ (.inl rfl)⟩
  | noop => exact ⟨_, rfl, .passed _ (.inl rfl)⟩
  | eq a b c => exact ⟨_, finish_eq _, .of_binary (i := .eq a b c) _ b c nofun nofun rfl nofun nofun⟩
  | gt a b c => exact ⟨_, finish_eq _, .of_binary (i := .gt a b c) _ b c nofun nofun rfl nofun nofun⟩
  | add a b c => exact ⟨_, finish_eq _, .of_binary (i := .add a b c) _ b c nofun nofun rfl nofun nofun⟩
  | mul a b c => exact ⟨_, finish_eq _, .of_binary (i := .mul a b c) _ b c nofun nofun rfl nofun nofun⟩
  | and a b c => exact ⟨_, finish_eq _, .of_binary (i := .and a b c) _ b c nofun nofun rfl nofun nofun⟩
  | or a b c => exact ⟨_, finish_eq _, .of_binary (i := .or a b c) _ b c nofun nofun rfl nofun nofun⟩
  | mod a b c =>
    refine ⟨_, finish_eq _, ?_⟩
    refine Res.after_andThen _ _ _ (fun t h => .of_resolve_ended (i := .mod a b c) nofun nofun h) fun vb u hb => ?_
    obtain ⟨rfl, -⟩ := valueOf_of_resolve hb
    refine Res.after_andThen _ _ _ (fun t h => .of_resolve_ended (i := .mod a b c) nofun nofun h) fun vc u hc => ?_
    obtain ⟨rfl, -⟩ := valueOf_of_resolve hc
    split
    · exact .fault (.mod a b c) _ _ nofun nofun nofun nofun
    · exact .of_store (i := .mod a b c) _ nofun nofun rfl nofun nofun
  | set a b =>
    refine ⟨_, finish_eq _, ?_⟩
    refine Res.after_andThen _ _ _ (fun t h => .of_resolve_ended (i := .set a b) nofun nofun h) fun vb u hb => ?_
    obtain ⟨rfl, -⟩ := valueOf_of_resolve hb
    exact .of_store (i := .set a b) _ nofun nofun rfl nofun nofun
  | not a b =>
    refine ⟨_, finish_eq _, ?_⟩
    refine Res.after_andThen _ _ _ (fun t h => .of_resolve_ended (i := .not a b) nofun nofun h) fun vb u hb => ?_
    obtain ⟨rfl, -⟩ := valueOf_of_resolve hb
    exact .of_store (i := .not a b) _ nofun nofun rfl nofun nofun
  | rmem a b =>
    refine ⟨_, finish_eq _, ?_⟩
    refine Res.after_andThen _ _ _ (fun t h => .of_resolve_ended (i := .rmem a b) nofun nofun h) fun vb u hb => ?_
    obtain ⟨rfl, -⟩ := valueOf_of_resolve hb
    exact .of_store (i := .rmem a b) _ nofun nofun rfl nofun nofun
  | push a =>
    refine ⟨_, finish_eq _, ?_⟩
    refine Res.after_andThen _ _ _ (fun t h => .of_resolve_ended (i := .push a) nofun nofun h) fun v u hv => ?_
    obtain ⟨rfl, hval⟩ := valueOf_of_resolve hv
    rw [Config.stackDepth, push_none]
    exact .pushed a v hval
  | pop a =>
    refine ⟨_, finish_eq _, ?_⟩
    refine Res.after_andThen _ _ _ (fun t h => ?_) fun e u he => ?_
    · obtain ⟨-, rfl⟩ := pop_eq_ended h
      exact .fault (.pop a) _ _ nofun nofun nofun nofun
    · obtain ⟨below, hb, rfl⟩ := pop_eq_ok he
      cases hst : store a e { s.past 2 with stack := below } with
      | ok v t =>
        obtain ⟨r, v, rfl, -, rfl⟩ := store_eq_ok hst
        exact .popped r below e v hb
      | ended t =>
        rcases store_eq_ended hst with rfl | rfl
        · exact .popFault a below e _ _ hb (.inl rfl)
        · exact .popFault a below e _ _ hb (.inr rfl)
  | jmp a => exact ⟨_, finish_eq _, .of_jumpTo (i := .jmp a) a nofun nofun (.inl ⟨a, rfl⟩)⟩
  | jt a b =>
    refine ⟨_, finish_eq _, ?_⟩
    refine Res.after_andThen _ _ _ (fun t h => .of_resolve_ended (i := .jt a b) nofun nofun h) fun v u hv => ?_
    obtain ⟨rfl, -⟩ := valueOf_of_resolve hv
    split
    · exact .of_jumpTo (i := .jt a b) b nofun nofun (.inr (.inl ⟨a, b, rfl⟩))
    · exact .passed (.jt a b) (.inr (.inl ⟨a, b, rfl⟩))
  | jf a b =>
    refine ⟨_, finish_eq _, ?_⟩
    refine Res.after_andThen _ _ _ (fun t h => .of_resolve_ended (i := .jf a b) nofun nofun h) fun v u hv => ?_
    obtain ⟨rfl, -⟩ := valueOf_of_resolve hv
    split
    · exact .passed (.jf a b) (.inr (.inr ⟨a, b, rfl⟩))
    · exact .of_jumpTo (i := .jf a b) b nofun nofun (.inr (.inr ⟨a, b, rfl⟩))
  | wmem a b =>
    refine ⟨_, finish_eq _, ?_⟩
    refine Res.after_andThen _ _ _ (fun t h => .of_resolve_ended (i := .wmem a b) nofun nofun h) fun addr u ha => ?_
    obtain ⟨rfl, haddr⟩ := valueOf_of_resolve ha
    refine Res.after_andThen _ _ _ (fun t h => .of_resolve_ended (i := .wmem a b) nofun nofun h) fun v u hv => ?_
    obtain ⟨rfl, hval⟩ := valueOf_of_resolve hv
    exact .stored a b addr v haddr hval
  | call a =>
    refine ⟨_, finish_eq _, ?_⟩
    rw [callWithDepth, Config.stackDepth, push_none, Res.andThen_ok]
    refine Res.after_andThen _ _ _ (fun t h => ?_) fun v u hv => ?_
    · obtain ⟨w, rfl, rfl⟩ := resolve_eq_ended h
      exact .callFault w
    · obtain ⟨rfl, hval⟩ := valueOf_of_resolve hv
      exact .called a v hval
  | ret =>
    by_cases h : s.stack = []
    · exact ⟨_, by simp only [exec, execRet, h, if_true], .halted .ret (.inr ⟨rfl, h⟩)⟩
    · obtain ⟨below, t, hb⟩ : ∃ below t, s.stack = below ++ [t] := ⟨_, _, (List.dropLast_append_getLast h).symm⟩
      refine ⟨{ s with pc := t, stack := below }, ?_, .returned below t hb⟩
      simp only [exec, execRet, h, if_false, pop_append (s.past 1) below t hb]
      rfl
  | out a =>
    refine ⟨_, finish_eq _, ?_⟩
    refine Res.after_andThen _ _ _ (fun t h => .of_resolve_ended (i := .out a) nofun nofun h) fun v u hv => ?_
    obtain ⟨rfl, hval⟩ := valueOf_of_resolve hv
    exact .sent a v hval
  | in_ a =>
    cases h : takeChar (s.past 2) with
    | ended t =>
      obtain ⟨-, -, rfl⟩ := takeChar_eq_ended h
      exact ⟨_, by simp only [exec, execIn, h]; rfl, .fault (.in_ a) .inputExhausted 0 nofun nofun nofun nofun⟩
    | ok v u =>
      cases v with
      | none => exact ⟨_, by simp only [exec, execIn, h], .waited a u h⟩
      | some c =>
        refine ⟨_, by simp only [exec, execIn, h]; exact finish_eq _, ?_⟩
        rw [store_widen]
        cases a with
        | reg r => exact .received r c u h
        | lit v => exact .receivedFault _ c u h
        | invalid w => exact .receivedFault _ c u h

theorem effect_of_exec {i : Instr} {s t : State} (h : exec i s = .next t) : Effect s i t := by
  obtain ⟨u, hu, he⟩ := exec_effect i s
  rw [h] at hu
  cases hu
  exact he

end Sys2Proof.Machine
end

