-- ==== Sys2Proof/Laws/Memory.lean ====
section
/-! SUPPORT. Reading after writing, and that every memory operation keeps the canonical form. -/

namespace Sys2Proof.Machine

/-! ### Reading -/

theorem Memory.readByte_filter (m : Memory) (i j : Nat) (h : j ≠ i) :
    Memory.readByte (m.filter fun c => c.1 ≠ i) j = m.readByte j := by
  induction m with
  | nil => rfl
  | cons c rest ih =>
    obtain ⟨a, b⟩ := c
    by_cases ha : a = i
    · have : j ≠ a := by omega
      simpa [ha, Memory.readByte, h] using ih
    · simp only [ne_eq, ha, not_false_eq_true, decide_true, List.filter_cons_of_pos, Memory.readByte]
      split
      · rfl
      · exact ih

theorem Memory.readByte_filter_self (m : Memory) (i : Nat) :
    Memory.readByte (m.filter fun c => c.1 ≠ i) i = 0 := by
  induction m with
  | nil => rfl
  | cons c rest ih =>
    obtain ⟨a, b⟩ := c
    by_cases ha : a = i
    · simpa [ha] using ih
    · have : ¬ i = a := fun e => ha e.symm
      simpa [ha, Memory.readByte, this] using ih

theorem Memory.readByte_insertByte_ne (m : Memory) (i j : Nat) (v : Byte) (h : j ≠ i) :
    (Memory.insertByte m i v).readByte j = m.readByte j := by
  induction m with
  | nil => simp [Memory.insertByte, Memory.readByte, h]
  | cons c rest ih =>
    obtain ⟨a, b⟩ := c
    unfold Memory.insertByte
    split
    · simp [Memory.readByte, h]
    · simp only [Memory.readByte]
      split
      · rfl
      · exact ih

theorem Memory.readByte_insertByte_self (m : Memory) (i : Nat) (v : Byte) (h : ∀ c ∈ m, c.1 ≠ i) :
    (Memory.insertByte m i v).readByte i = v := by
  induction m with
  | nil => simp [Memory.insertByte, Memory.readByte]
  | cons c rest ih =>
    obtain ⟨a, b⟩ := c
    unfold Memory.insertByte
    split
    · simp [Memory.readByte]
    · have : ¬ i = a := fun e => h (a, b) (by simp) e.symm
      simp only [Memory.readByte, this, if_false]
      exact ih fun c hc => h c (List.mem_cons_of_mem _ hc)

/-- Reading one byte after writing one. -/
theorem Memory.readByte_writeByte (m : Memory) (i j : Nat) (v : Byte) :
    (m.writeByte i v).readByte j = if j = i then v else m.readByte j := by
  unfold Memory.writeByte
  by_cases hij : j = i
  · subst hij
    by_cases hv : v = 0
    · simp only [hv, if_true]
      exact Memory.readByte_filter_self m j
    · simp only [hv, if_true, if_false]
      exact Memory.readByte_insertByte_self _ _ _ (by simp)
  · simp only [hij, if_false]
    by_cases hv : v = 0
    · simp only [hv, if_true]
      exact Memory.readByte_filter _ _ _ hij
    · simp only [hv, if_false]
      rw [Memory.readByte_insertByte_ne _ _ _ _ hij, Memory.readByte_filter _ _ _ hij]

/-- Every byte after writing one cell. -/
theorem Memory.readByte_writeCell (m : Memory) (a j : Nat) (w : Word) :
    (m.writeCell a w).readByte j =
      if j = 2 * a then lowByte w else if j = 2 * a + 1 then highByte w else m.readByte j := by
  simp only [Memory.writeCell, Memory.readByte_writeByte]
  split <;> split <;> first | rfl | omega

theorem Memory.readCell_writeCell_self (m : Memory) (a : Nat) (w : Word) : (m.writeCell a w).readCell a = w := by
  simp [Memory.readCell, Memory.readByte_writeCell, wordOfBytes_low_high]

theorem Memory.readCell_writeCell_ne (m : Memory) (a b : Nat) (w : Word) (h : b ≠ a) :
    (m.writeCell a w).readCell b = m.readCell b := by
  have h1 : ¬ 2 * b = 2 * a := by omega
  have h2 : ¬ 2 * b = 2 * a + 1 := by omega
  have h3 : ¬ 2 * b + 1 = 2 * a := by omega
  have h4 : ¬ 2 * b + 1 = 2 * a + 1 := by omega
  simp only [Memory.readCell, Memory.readByte_writeCell, h1, h2, h3, h4, if_false]

theorem Memory.readByte_ofBytes_below (bs : List Byte) (i j : Nat) (h : j < i) : (Memory.ofBytes i bs).readByte j = 0 := by
  induction bs generalizing i with
  | nil => rfl
  | cons b rest ih =>
    unfold Memory.ofBytes
    split
    · exact ih _ (by omega)
    · have : ¬ j = i := by omega
      simp only [Memory.readByte, this, if_false]
      exact ih _ (by omega)

/-- What an image puts at an offset; 0 beyond its end. -/
theorem Memory.readByte_ofBytes (bs : List Byte) (i k : Nat) : (Memory.ofBytes i bs).readByte (i + k) = bs.getD k 0 := by
  induction bs generalizing i k with
  | nil => simp [Memory.ofBytes, Memory.readByte]
  | cons b rest ih =>
    cases k with
    | zero =>
      unfold Memory.ofBytes
      split
      · simp_all [Memory.readByte_ofBytes_below rest (i + 1) i (by omega)]
      · simp [Memory.readByte]
    | succ k =>
      have e : i + (k + 1) = i + 1 + k := by omega
      unfold Memory.ofBytes
      split
      · rw [e, ih]; simp
      · have : ¬ i + (k + 1) = i := by omega
        simp only [Memory.readByte, this, if_false]
        rw [e, ih]; simp

/-! ### The canonical form -/

theorem Memory.wfFrom_cons (lo a : Nat) (b : Byte) (rest : Memory) :
    Memory.wfFrom lo ((a, b) :: rest) = true ↔
      lo ≤ a ∧ a < 65536 ∧ b ≠ 0 ∧ Memory.wfFrom (a + 1) rest = true := by
  simp only [Memory.wfFrom, Bool.and_eq_true, decide_eq_true_eq, and_assoc]
  exact Iff.rfl

theorem Memory.wfFrom_mono (m : Memory) (lo lo' : Nat) (h : lo' ≤ lo) (hm : m.wfFrom lo = true) : m.wfFrom lo' = true := by
  cases m with
  | nil => rfl
  | cons c rest =>
    obtain ⟨a, b⟩ := c
    rw [Memory.wfFrom_cons] at *
    exact ⟨by omega, hm.2⟩

theorem Memory.wfFrom_filter (m : Memory) (lo : Nat) (p : Host.Cell → Bool) (hm : m.wfFrom lo = true) :
    Memory.wfFrom lo (m.filter p) = true := by
  induction m generalizing lo with
  | nil => rfl
  | cons c rest ih =>
    obtain ⟨a, b⟩ := c
    rw [Memory.wfFrom_cons] at hm
    by_cases hp : p (a, b) = true
    · rw [List.filter_cons_of_pos hp, Memory.wfFrom_cons]
      exact ⟨hm.1, hm.2.1, hm.2.2.1, ih _ hm.2.2.2⟩
    · rw [List.filter_cons_of_neg hp]
      exact Memory.wfFrom_mono _ _ _ (by omega) (ih _ hm.2.2.2)

theorem Memory.wfFrom_insertByte (m : Memory) (lo i : Nat) (v : Byte) (hlo : lo ≤ i) (hi : i < 65536) (hv : v ≠ 0)
    (hne : ∀ c ∈ m, c.1 ≠ i) (hm : m.wfFrom lo = true) : (Memory.insertByte m i v).wfFrom lo = true := by
  induction m generalizing lo with
  | nil => exact (Memory.wfFrom_cons _ _ _ _).mpr ⟨hlo, hi, hv, rfl⟩
  | cons c rest ih =>
    obtain ⟨a, b⟩ := c
    rw [Memory.wfFrom_cons] at hm
    have hai : a ≠ i := hne (a, b) (by simp)
    unfold Memory.insertByte
    split
    · rw [Memory.wfFrom_cons, Memory.wfFrom_cons]
      exact ⟨hlo, hi, hv, by omega, hm.2⟩
    · rw [Memory.wfFrom_cons]
      exact ⟨hm.1, hm.2.1, hm.2.2.1,
        ih (a + 1) (by omega) (fun c hc => hne c (List.mem_cons_of_mem _ hc)) hm.2.2.2⟩

theorem Memory.wf_writeByte (m : Memory) (i : Nat) (v : Byte) (hi : i < 65536) (hm : m.wf = true) :
    (m.writeByte i v).wf = true := by
  unfold Memory.writeByte
  split
  · exact Memory.wfFrom_filter _ _ _ hm
  · rename_i hv
    exact Memory.wfFrom_insertByte _ _ _ _ (by omega) hi hv (by simp) (Memory.wfFrom_filter _ _ _ hm)

theorem Memory.wf_writeCell (m : Memory) (a : Nat) (w : Word) (ha : a < 32768) (hm : m.wf = true) :
    (m.writeCell a w).wf = true :=
  Memory.wf_writeByte _ _ _ (by omega) (Memory.wf_writeByte _ _ _ (by omega) hm)

theorem Memory.wf_placeWords (ws : List Word) (m : Memory) (a : Nat) (hm : m.wf = true) :
    (m.placeWords a ws).wf = true := by
  induction ws generalizing m a with
  | nil => exact hm
  | cons w rest ih =>
    unfold Memory.placeWords
    split
    · rename_i ha
      exact ih _ _ (Memory.wf_writeCell _ _ _ ha hm)
    · exact hm

theorem Memory.wfFrom_ofBytes (bs : List Byte) (i : Nat) (h : i + bs.length ≤ 65536) :
    (Memory.ofBytes i bs).wfFrom i = true := by
  induction bs generalizing i with
  | nil => rfl
  | cons b rest ih =>
    simp only [List.length_cons] at h
    unfold Memory.ofBytes
    split
    · exact Memory.wfFrom_mono _ _ _ (by omega) (ih (i + 1) (by omega))
    · rename_i hb
      rw [Memory.wfFrom_cons]
      exact ⟨by omega, by omega, hb, ih (i + 1) (by omega)⟩

/-- Nothing is listed below the least offset. -/
theorem Memory.readByte_below (m : Memory) (lo j : Nat) (hm : m.wfFrom lo = true) (h : j < lo) : m.readByte j = 0 := by
  induction m generalizing lo with
  | nil => rfl
  | cons c rest ih =>
    obtain ⟨a, b⟩ := c
    rw [Memory.wfFrom_cons] at hm
    have : ¬ j = a := by omega
    simp only [Memory.readByte, this, if_false]
    exact ih (a + 1) hm.2.2.2 (by omega)

/-- Two canonical memories that read alike are equal, so equal contents are equal data. -/
theorem Memory.eq_of_readByte (m n : Memory) (lo : Nat) (hm : m.wfFrom lo = true) (hn : n.wfFrom lo = true)
    (h : ∀ i, m.readByte i = n.readByte i) : m = n := by
  induction m generalizing lo n with
  | nil =>
    cases n with
    | nil => rfl
    | cons d rest =>
      obtain ⟨a, b⟩ := d
      rw [Memory.wfFrom_cons] at hn
      exact absurd (by simpa [Memory.readByte] using (h a).symm) hn.2.2.1
  | cons c rest ih =>
    obtain ⟨a, b⟩ := c
    rw [Memory.wfFrom_cons] at hm
    cases n with
    | nil => exact absurd (by simpa [Memory.readByte] using h a) hm.2.2.1
    | cons d rest' =>
      obtain ⟨a', b'⟩ := d
      rw [Memory.wfFrom_cons] at hn
      have ha : a = a' := by
        rcases Nat.lt_trichotomy a a' with hlt | heq | hgt
        · have h0 := h a
          rw [Memory.readByte_below ((a', b') :: rest') a' a ((Memory.wfFrom_cons _ _ _ _).mpr ⟨le_refl _, hn.2⟩) hlt] at h0
          exact absurd (by simpa [Memory.readByte] using h0) hm.2.2.1
        · exact heq
        · have h0 := h a'
          rw [Memory.readByte_below ((a, b) :: rest) a a' ((Memory.wfFrom_cons _ _ _ _).mpr ⟨le_refl _, hm.2⟩) hgt] at h0
          exact absurd (by simpa [Memory.readByte] using h0.symm) hn.2.2.1
      subst ha
      have hb : b = b' := by simpa [Memory.readByte] using h a
      subst hb
      congr 1
      refine ih rest' (a + 1) hm.2.2.2 hn.2.2.2 fun i => ?_
      by_cases hi : i = a
      · subst hi
        rw [Memory.readByte_below rest (i + 1) i hm.2.2.2 (by omega), Memory.readByte_below rest' (i + 1) i hn.2.2.2 (by omega)]
      · have h0 := h i
        simpa only [Memory.readByte, hi, if_false] using h0

theorem State.reset_mem_wf : State.reset.mem.wf = true := rfl

end Sys2Proof.Machine
end

