-- ==== Sys2Proof/Tests/Slice0.lean ====
section
/-! SUPPORT. Tests of the model: ill-formed terms, one decoding per constructor, one-step vectors of 95_test_vectors.md, and for
every statement that has hypotheses a witness that meets them, clause by clause. -/

namespace Sys2Proof.Tests

open Sys2Proof.Machine

/-! ### WellFormed: an invalid operand with a word of another class, in every operand place -/

/-- A literal's and a register's word are no invalid words; 32776 and 65535 are (30_encoding.md R75). -/
theorem test_operand_wf :
    (Operand.invalid 32767).wf = false ∧ (Operand.invalid 32775).wf = false ∧ (Operand.invalid 32776).wf = true ∧
    (Operand.invalid 65535).wf = true ∧ (Operand.lit 0).wf = true ∧ (Operand.reg 7).wf = true := by decide

theorem test_wf_refuses_one_operand :
    [Instr.push (.invalid 0), .pop (.invalid 0), .jmp (.invalid 0), .call (.invalid 0), .out (.invalid 0),
      .in_ (.invalid 0)].all (fun i => !i.wf) = true := by decide

theorem test_wf_refuses_first_of_two :
    [Instr.set (.invalid 0) (.lit 0), .jt (.invalid 0) (.lit 0), .jf (.invalid 0) (.lit 0), .not (.invalid 0) (.lit 0),
      .rmem (.invalid 0) (.lit 0), .wmem (.invalid 0) (.lit 0)].all (fun i => !i.wf) = true := by decide

theorem test_wf_refuses_second_of_two :
    [Instr.set (.reg 0) (.invalid 0), .jt (.lit 0) (.invalid 0), .jf (.lit 0) (.invalid 0), .not (.reg 0) (.invalid 0),
      .rmem (.reg 0) (.invalid 0), .wmem (.lit 0) (.invalid 0)].all (fun i => !i.wf) = true := by decide

/-- The three-operand instructions, each operand place in turn. -/
theorem test_wf_refuses_of_three :
    [Instr.eq, .gt, .add, .mul, .mod, .and, .or].all (fun mk =>
      !(mk (.invalid 0) (.lit 0) (.lit 0)).wf && !(mk (.reg 0) (.invalid 0) (.lit 0)).wf &&
      !(mk (.reg 0) (.lit 0) (.invalid 0)).wf && (mk (.reg 0) (.lit 0) (.lit 0)).wf) = true := by decide

/-! ### Decoding: the words written out from 30_encoding.md R70, R75, R80 -/

theorem test_decode_halt : decode [0b0000000000000000] = .ok (.halt, []) := by decide
theorem test_decode_set : decode [0b00001, 0b1000000000000001, 1234] = .ok (.set (.reg 1) (.lit 1234), []) := by decide
theorem test_decode_push : decode [0b00010, 0b1000000000000010] = .ok (.push (.reg 2), []) := by decide
theorem test_decode_pop : decode [0b00011, 0b1000000000000011, 9] = .ok (.pop (.reg 3), [9]) := by decide
theorem test_decode_eq : decode [0b00100, 0x8001, 0x8000, 10] = .ok (.eq (.reg 1) (.reg 0) (.lit 10), []) := by decide
theorem test_decode_gt : decode [0b00101, 0x8007, 0x7FFF, 0] = .ok (.gt (.reg 7) (.lit 32767) (.lit 0), []) := by decide
theorem test_decode_jmp : decode [0b00110, 100] = .ok (.jmp (.lit 100), []) := by decide
theorem test_decode_jt : decode [0b00111, 0x8000, 6] = .ok (.jt (.reg 0) (.lit 6), []) := by decide
theorem test_decode_jf : decode [0b01000, 0x8001, 0] = .ok (.jf (.reg 1) (.lit 0), []) := by decide
theorem test_decode_add : decode [0b01001, 0x8000, 4, 5] = .ok (.add (.reg 0) (.lit 4) (.lit 5), []) := by decide
theorem test_decode_mul : decode [0b01010, 0x8000, 0x8000, 0x8001] = .ok (.mul (.reg 0) (.reg 0) (.reg 1), []) := by decide
theorem test_decode_mod : decode [0b01011, 0x8000, 7, 3] = .ok (.mod (.reg 0) (.lit 7) (.lit 3), []) := by decide
theorem test_decode_and : decode [0b01100, 0x8000, 32767, 21845] = .ok (.and (.reg 0) (.lit 32767) (.lit 21845), []) := by
  decide
theorem test_decode_or : decode [0b01101, 0x8001, 10922, 21845] = .ok (.or (.reg 1) (.lit 10922) (.lit 21845), []) := by
  decide
theorem test_decode_not : decode [0b01110, 0x8000, 0] = .ok (.not (.reg 0) (.lit 0), []) := by decide
theorem test_decode_rmem : decode [0b01111, 0x8002, 100] = .ok (.rmem (.reg 2) (.lit 100), []) := by decide
theorem test_decode_wmem : decode [0b10000, 100, 0x8001] = .ok (.wmem (.lit 100) (.reg 1), []) := by decide
theorem test_decode_call : decode [0b10001, 10] = .ok (.call (.lit 10), []) := by decide
theorem test_decode_ret : decode [0b10010] = .ok (.ret, []) := by decide
theorem test_decode_out : decode [0b10011, 0x8000] = .ok (.out (.reg 0), []) := by decide
theorem test_decode_in : decode [0b10100, 0x8000] = .ok (.in_ (.reg 0), []) := by decide
theorem test_decode_noop : decode [0b10101] = .ok (.noop, []) := by decide

/-- The least invalid operand word, as a source and as a destination, is decoded and not refused (R82). -/
theorem test_decode_invalid_operand :
    decode [1, 0x8008, 0xFFFF] = .ok (.set (.invalid 0x8008) (.invalid 0xFFFF), []) := by decide

/-- Unknown opcode words, a register's word among them (R72, R81). -/
theorem test_decode_unknown :
    decode [22] = .error (.unknownOpcode 22) ∧ decode [0x8000] = .error (.unknownOpcode 0x8000) ∧
    decode [0xFFFF, 0] = .error (.unknownOpcode 0xFFFF) ∧ decode [9, 0x8000, 4] = .error .outOfWords := by decide

/-- The image bytes of the worked encoding (30_encoding.md section 8). -/
theorem test_decode_bytes :
    decodeBytes [0x09, 0x00, 0x00, 0x80, 0x04, 0x00, 0x05, 0x00] = .ok (.add (.reg 0) (.lit 4) (.lit 5), []) := by decide

/-- A table word: `jmp` with the operand's word above the opcode's, and with no bits given to it. -/
theorem test_decode_table_word :
    decodeTableWord 32 (6 + 65536 * 100) = some (.jmp (.lit 100)) ∧ decodeTableWord 16 6 = some (.jmp (.lit 0)) := by decide

/-- Spellings of 30_encoding.md R90 to R92. -/
theorem test_spelling :
    (Instr.add (.reg 0) (.lit 4) (.lit 5)).spelling = "add $0 4 5" ∧ Instr.halt.spelling = "halt" ∧
    (Instr.in_ (.reg 7)).spelling = "in $7" := by decide

/-! ### One step of the vectors of 95_test_vectors.md -/

/-- The reset state with words at address 0. -/
def code (ws : List Word) : State := { State.reset with mem := State.reset.mem.placeWords 0 ws }

/-- A view of the next state. -/
def after {α : Type} (o : Host.Outcome State Fault Refusal) (f : State → α) : Option α :=
  match o with
  | .next t => some (f t)
  | .fault _ => none
  | .refused _ => none

/-- V-SYS-1 and V-SYS-4: the dump has the pc after the halt, and a halt in the last cell does not fault. -/
theorem test_halt : after (step (code [0])) (fun t => (t.status, t.pc, t.diagStream)) =
    some (.halted, 1, [⟨1, State.reset.regs⟩]) := by decide
theorem test_halt_last_cell : after (step { code [] with pc := 32767 }) (fun t => (t.status, t.pc)) =
    some (.halted, 32768) := by decide

/-- V-SYS-2, and the second cycle of V-SYS-5. -/
theorem test_noop : after (step (code [21])) id = some { code [21] with pc := 1 } := by decide
theorem test_fetch_out_of_range : after (step { code [21] with pc := 32768 }) (fun t => (t.status, t.pc)) =
    some (.faulted .fetchOutOfRange 32768, 32768) := by decide

/-- V-DEC-4: an operand beyond the end. -/
theorem test_fetch_operand_out_of_range :
    after (step { State.reset with pc := 32766, mem := Memory.placeWords [] 32766 [9, 32768] })
      (fun t => (t.status, t.pc, t.regs)) = some (.faulted .fetchOutOfRange 32768, 32768, State.reset.regs) := by decide

/-- V-DEC-2. -/
theorem test_unknown_opcode : after (step (code [32768])) (fun t => (t.status, t.pc, t.diagStream)) =
    some (.faulted .unknownOpcode 32768, 1, [⟨1, State.reset.regs⟩]) := by decide

/-- V-MOV-1 and V-MOV-4. -/
theorem test_set : after (step (code [1, 32769, 1234])) (fun t => (t.getReg 1, t.pc)) = some (1234, 3) := by decide
theorem test_set_literal_destination : after (step (code [1, 0, 7])) (fun t => (t.status, t.pc, t.regs)) =
    some (.faulted .invalidRegister 0, 3, State.reset.regs) := by decide

/-- V-MOV-7 and V-MOV-8. -/
theorem test_push : after (step ((code [2, 32770]).setReg 2 300)) (fun t => (t.stack, t.pc)) = some ([300], 2) := by decide
theorem test_push_invalid : after (step (code [2, 32776])) (fun t => (t.status, t.stack)) =
    some (.faulted .invalidAddress 32776, []) := by decide

/-- V-MOV-12 and V-MOV-11. -/
theorem test_pop_reference :
    after (step { (code [3, 32769]).setReg 0 77 with stack := [32768] }) (fun t => (t.getReg 1, t.stack, t.pc)) =
      some (77, [], 2) := by decide
theorem test_pop_bad_destination : after (step { code [3, 2] with stack := [7, 9] }) (fun t => (t.status, t.stack)) =
    some (.faulted .invalidRegister 2, [7]) := by decide

/-- V-CMP-11 and V-CMP-10. -/
theorem test_eq_own_source :
    after (step (((code [4, 32768, 32768, 32769]).setReg 0 8).setReg 1 8)) (fun t => t.getReg 0) = some 1 := by decide
theorem test_eq_fault_order : after (step (code [4, 3, 1, 50000])) (fun t => (t.status, t.pc)) =
    some (.faulted .invalidAddress 50000, 4) := by decide

/-- V-CMP-7 and V-CMP-6. -/
theorem test_gt_unsigned : after (step (code [5, 32771, 32767, 0])) (fun t => t.getReg 3) = some 1 := by decide
theorem test_gt_equal : after (step ((code [5, 32770, 5, 5]).setReg 2 9)) (fun t => t.getReg 2) = some 0 := by decide

/-- V-JMP-2 and V-JMP-4. -/
theorem test_jmp_register : after (step ((code [6, 32771]).setReg 3 4000)) State.pc = some 4000 := by decide
theorem test_jmp_invalid : after (step (code [6, 65535])) (fun t => (t.status, t.pc)) =
    some (.faulted .invalidAddress 65535, 2) := by decide

/-- V-JMP-7 and V-JMP-8. -/
theorem test_jt_taken : after (step (code [7, 32767, 9])) State.pc = some 9 := by decide
theorem test_jt_untaken_invalid : after (step (code [7, 0, 40000])) (fun t => (t.status, t.pc)) = some (.running, 3) := by
  decide

/-- V-JMP-10 and V-JMP-12. -/
theorem test_jf_taken : after (step (code [8, 0, 5])) State.pc = some 5 := by decide
theorem test_jf_untaken : after (step (code [8, 32767, 5])) State.pc = some 3 := by decide

/-- V-ALU-3 and V-ALU-5. -/
theorem test_add_wraps : after (step (code [9, 32769, 32767, 32767])) (fun t => t.getReg 1) = some 32766 := by decide
theorem test_add_decrements : after (step ((code [9, 32768, 32768, 32767]).setReg 0 5)) (fun t => t.getReg 0) =
    some 4 := by decide

/-- V-ALU-9 and V-ALU-7. -/
theorem test_mul_wraps : after (step (code [10, 32770, 181, 182])) (fun t => t.getReg 2) = some 174 := by decide
theorem test_mul_largest : after (step (code [10, 32768, 32767, 32767])) (fun t => t.getReg 0) = some 1 := by decide

/-- V-ALU-14 and V-ALU-19. -/
theorem test_mod_smaller : after (step (code [11, 32769, 3, 7])) (fun t => t.getReg 1) = some 3 := by decide
theorem test_mod_zero_before_destination : after (step (code [11, 5, 7, 0])) (fun t => (t.status, t.pc)) =
    some (.faulted .divideByZero 0, 4) := by decide

/-- V-ALU-22, V-ALU-24, V-ALU-27 and V-ALU-28. -/
theorem test_and : after (step (code [12, 32770, 255, 3855])) (fun t => t.getReg 2) = some 15 := by decide
theorem test_or : after (step (code [13, 32771, 255, 3855])) (fun t => t.getReg 3) = some 4095 := by decide
theorem test_not : after (step (code [14, 32770, 21845])) (fun t => (t.getReg 2, t.pc)) = some (10922, 3) := by decide
theorem test_not_bad_destination : after (step (code [14, 7, 0])) State.status = some (.faulted .invalidRegister 7) := by
  decide

/-- The second example of R160, and V-MEM-6. -/
theorem test_rmem_reference :
    after (step { (code [1, 32769, 1234, 15, 32768, 1]).setReg 1 1234 with pc := 3 }) (fun t => (t.getReg 0, t.pc)) =
      some (1234, 6) := by decide
theorem test_rmem_fault_order : after (step (code [15, 5, 3, 40000])) (fun t => (t.status, t.pc)) =
    some (.faulted .invalidAddress 40000, 3) := by decide

/-- V-MEM-8 and V-MEM-13. -/
theorem test_wmem : after (step ((code [16, 100, 32769]).setReg 1 15)) (fun t => (t.mem.readCell 100, t.pc)) =
    some (15, 3) := by decide
theorem test_wmem_last_cell : after (step (code [16, 32767, 9])) (fun t => (t.mem.readCell 32767, t.mem.readCell 0)) =
    some (9, 16) := by decide

/-- V-CAL-2 and V-CAL-3. -/
theorem test_call_register : after (step ((code [17, 32768]).setReg 0 500)) (fun t => (t.stack, t.pc)) =
    some ([2], 500) := by decide
theorem test_call_invalid : after (step (code [17, 40000])) (fun t => (t.status, t.pc, t.stack)) =
    some (.faulted .invalidAddress 40000, 2, [2]) := by decide

/-- V-CAL-6 and V-CAL-7. -/
theorem test_ret : after (step { code [18] with stack := [5] }) (fun t => (t.pc, t.stack)) = some (5, []) := by decide
theorem test_ret_empty_halts : after (step (code [18])) (fun t => (t.status, t.diagStream)) =
    some (.halted, [⟨1, State.reset.regs⟩]) := by decide

/-- V-IO-2 and V-IO-3. -/
theorem test_out : after (step ((code [19, 32768]).setReg 0 9)) (fun t => (t.outStream, t.pc)) = some ([9], 2) := by decide
theorem test_out_invalid : after (step (code [19, 32776])) (fun t => (t.status, t.outStream)) =
    some (.faulted .invalidAddress 32776, []) := by decide

/-- V-IO-4 and V-IO-8. -/
theorem test_in : after (step { code [20, 32768] with inPort := [.line [104, 105]] })
    (fun t => (t.getReg 0, t.pending, t.pc, t.inPort)) = some (104, [105, 10], 2, []) := by decide
theorem test_in_bad_destination : after (step { code [20, 5] with inPort := [.line [104, 105]] })
    (fun t => (t.status, t.pending)) = some (.faulted .invalidRegister 5, [105, 10]) := by decide

/-- V-IO-5, V-IO-7 and V-IO-9. -/
theorem test_take_char_empty_line : takeChar { State.reset with inPort := [.line []] } = .ok (some 10) State.reset := by
  decide
theorem test_take_char_closed : after (step { code [20, 32768] with inPort := [.closed] }) (fun t => (t.status, t.pc)) =
    some (.faulted .inputExhausted 0, 2) := by decide
theorem test_in_waits : after (step (code [20, 32768])) id = some (code [20, 32768]) := by decide

/-- V-DEC-5, and the one-byte and over-long checks of S9 on the length alone. -/
theorem test_load : (State.load State.reset [0x09, 0x00, 0x00, 0x80, 0x04, 0x00, 0x05, 0x00]) = code [9, 32768, 4, 5] := by
  decide
theorem test_load_odd : (State.load State.reset [0x15]).status = .faulted .loadError 1 ∧
    (State.load State.reset [0x15]).diagStream = [] := by decide

/-! ### Witnesses: for each statement with hypotheses, values that meet them, one group for each clause -/

theorem witness_DecodeOfEncode :
    (Instr.set (.reg 7) (.invalid 32776)).wf = true ∧ (Instr.add (.lit 0) (.lit 32767) (.reg 0)).wf = true := by decide

theorem witness_EncodeOfDecode : decode [21, 22] = .ok (.noop, [22]) ∧
    decode [6, 65535, 1] = .ok (.jmp (.invalid 65535), [1]) := by decide

theorem witness_OperandWordClasses : (32767 : Word).toNat ≤ 32767 ∧
    (32768 ≤ (32768 : Word).toNat ∧ (32768 : Word).toNat ≤ 32775) ∧
    (32768 ≤ (32775 : Word).toNat ∧ (32775 : Word).toNat ≤ 32775) ∧ 32776 ≤ (32776 : Word).toNat := by decide

theorem witness_ResolveByClass : (32767 : Value).toNat = (32767 : Word).toNat ∧
    (32775 : Word).toNat = 32768 + (7 : Fin 8).val ∧ 32776 ≤ (32776 : Word).toNat := by decide

theorem witness_StepRunsDecodedInstruction : (code [9, 32768, 4, 5]).status = .running ∧
    decode (code [9, 32768, 4, 5]).codeWords = .ok (.add (.reg 0) (.lit 4) (.lit 5), []) := by decide

theorem witness_UnknownOpcodeIsFatal :
    let s : State := { State.reset with pc := 32767, mem := Memory.placeWords [] 32767 [22] }
    s.status = .running ∧ s.pc.toNat ≤ 32767 ∧ 22 ≤ (s.mem.readCell s.pc.toNat).toNat := by decide

theorem witness_FetchPastTheEndIsFatal :
    (let s : State := { State.reset with pc := 32768 }
     s.status = .running ∧ 32768 ≤ s.pc.toNat) ∧
    (let s : State := { State.reset with pc := 32767, mem := Memory.placeWords [] 32767 [6] }
     s.status = .running ∧ s.pc.toNat ≤ 32767 ∧ s.mem.readCell s.pc.toNat = (Instr.jmp (.lit 0)).opcode ∧
      32768 < s.pc.toNat + (Instr.jmp (.lit 0)).length) := by decide

theorem witness_EndedMachineNeverChanges : State.ended { State.reset with status := .halted } = true ∧
    State.ended { State.reset with status := .faulted .divideByZero 0 } = true := by decide

theorem witness_ZeroCellHalts : State.reset.status = .running ∧ State.reset.pc.toNat ≤ 32767 ∧
    State.reset.mem.readCell State.reset.pc.toNat = 0 := by decide

theorem witness_PlacedInstructionRuns : (State.pc { State.reset with pc := 32764 }).toNat + 4 ≤ 32768 ∧
    decodeTableWord 16 11 = some (.mod (.lit 0) (.lit 0) (.lit 0)) := by decide

/-- An empty image, a last word at address 0, and the first address beyond it. -/
theorem witness_ImageFillsMemory : ([] : List Byte).length % 2 = 0 ∧ ([] : List Byte).length ≤ 65536 ∧
    ([255, 255] : List Byte).length % 2 = 0 ∧ ([255, 255] : List Byte).length ≤ 65536 ∧
    2 * 0 < ([255, 255] : List Byte).length ∧ ([255, 255] : List Byte).length ≤ 2 * 1 := by decide

theorem witness_ResetStateAfterLoad : ([255, 255] : List Byte).length % 2 = 0 ∧ ([255, 255] : List Byte).length ≤ 65536 := by
  decide

/-- The over-long image is the least one, 65538 bytes. -/
theorem witness_MalformedImageIsRefused : ([21] : List Byte).length % 2 = 1 ∧
    ((List.replicate 65538 (0 : Byte)).length % 2 = 0 ∧ 65536 < (List.replicate 65538 (0 : Byte)).length) := by
  rw [List.length_replicate]
  decide

/-- For SetRule and NotRule: sources and results at their bounds. -/
theorem witness_UnaryRule :
    State.reset.valueOf (.lit 32767) = some 32767 ∧ State.reset.valueOf (.reg 7) = some 0 ∧
    Operand.isReg (.lit 7) = false ∧ Operand.isReg (.invalid 32776) = false ∧
    (∀ i : Fin 15, (0 : Value).toNat.testBit i.val = !(32767 : Value).toNat.testBit i.val) := by decide

theorem witness_PushRule : State.reset.valueOf (.lit 32767) = some 32767 ∧ (32767 : Word).toNat = (32767 : Value).toNat := by
  decide

/-- One entry for each clause: the largest literal, the least register reference, the least invalid word, the largest entry
that resolves, and the empty stack. -/
theorem witness_PopRule :
    (State.stack { State.reset with stack := [1, 32767] } = [1] ++ [32767] ∧ (32767 : Value).toNat = (32767 : Word).toNat) ∧
    (State.stack { State.reset with stack := [32768] } = [] ++ [32768] ∧ (32768 : Word).toNat = 32768 + (0 : Fin 8).val) ∧
    (State.stack { State.reset with stack := [32776] } = [] ++ [32776] ∧ 32776 ≤ (32776 : Word).toNat) ∧
    (State.stack { State.reset with stack := [32775] } = [] ++ [32775] ∧ (32775 : Word).toNat ≤ 32775 ∧
      Operand.isReg (.lit 0) = false) ∧
    State.reset.stack = [] := by decide

/-- For EqRule, GtRule, AddRule, MulRule, AndRule and OrRule: the values 32767 and 0 and the result each relation gives
them. -/
theorem witness_BinaryRule :
    State.reset.valueOf (.lit 32767) = some 32767 ∧ State.reset.valueOf (.reg 0) = some 0 ∧ Operand.isReg (.lit 7) = false ∧
    ((32767 : Value).toNat = (32767 : Value).toNat) ∧ ((32767 : Value).toNat ≠ (0 : Value).toNat) ∧ ((32767 : Value).toNat > (0 : Value).toNat) ∧
    ((0 : Value).toNat ≤ (32767 : Value).toNat) ∧
    (32766 : Value).toNat = ((32767 : Value).toNat + (32767 : Value).toNat) % 32768 ∧
    (1 : Value).toNat = ((32767 : Value).toNat * (32767 : Value).toNat) % 32768 ∧
    (∀ i : Fin 15, (0 : Value).toNat.testBit i.val =
      ((32767 : Value).toNat.testBit i.val && (0 : Value).toNat.testBit i.val)) ∧
    (∀ i : Fin 15, (32767 : Value).toNat.testBit i.val =
      ((32767 : Value).toNat.testBit i.val || (0 : Value).toNat.testBit i.val)) := by decide

theorem witness_JmpRule : State.reset.valueOf (.lit 32767) = some 32767 ∧ (32767 : Word).toNat = (32767 : Value).toNat := by
  decide

/-- For JtRule and JfRule: the conditions 1, 32767 and 0, each with a target. -/
theorem witness_CondJumpRule :
    State.reset.valueOf (.lit 1) = some 1 ∧ (1 : Value).toNat ≠ 0 ∧ State.reset.valueOf (.lit 32767) = some 32767 ∧
    (32767 : Value).toNat ≠ 0 ∧ State.reset.valueOf (.reg 0) = some 0 ∧ (0 : Value).toNat = 0 ∧
    (32767 : Word).toNat = (32767 : Value).toNat := by decide

/-- 32767 = 32766 * 1 + 1 is no remainder, 32767 = 1 * 32766 + 1 and 0 = 0 * 1 + 0 are. -/
theorem witness_ModRule :
    (State.reset.valueOf (.lit 32767) = some 32767 ∧ State.reset.valueOf (.lit 32766) = some 32766 ∧
      (32767 : Value).toNat = 1 * (32766 : Value).toNat + (1 : Value).toNat ∧ (1 : Value).toNat < (32766 : Value).toNat) ∧
    (State.reset.valueOf (.reg 0) = some 0 ∧ State.reset.valueOf (.lit 1) = some 1 ∧
      (0 : Value).toNat = 0 * (1 : Value).toNat + (0 : Value).toNat ∧ (0 : Value).toNat < (1 : Value).toNat) ∧
    (1 : Value).toNat ≠ 0 ∧ Operand.isReg (.lit 5) = false := by decide

/-- One cell content for each clause, at address 32767. -/
theorem witness_RmemRule :
    let m : Word → State := fun w => { State.reset with mem := Memory.placeWords [] 32767 [w] }
    ((m 32767).valueOf (.lit 32767) = some 32767 ∧
      (32767 : Value).toNat = ((m 32767).mem.readCell (32767 : Value).toNat).toNat) ∧
    ((m 32775).mem.readCell (32767 : Value).toNat).toNat = 32768 + (7 : Fin 8).val ∧
    32776 ≤ ((m 32776).mem.readCell (32767 : Value).toNat).toNat ∧
    (((m 32775).mem.readCell (32767 : Value).toNat).toNat ≤ 32775 ∧ Operand.isReg (.invalid 32776) = false) := by decide

theorem witness_WmemRule : State.reset.valueOf (.lit 32767) = some 32767 ∧ State.reset.valueOf (.reg 0) = some 0 := by decide

theorem witness_CallRule : State.reset.valueOf (.lit 0) = some 0 ∧ (0 : Word).toNat = (0 : Value).toNat := by decide

theorem witness_RetRule : State.stack { State.reset with stack := [5, 32768] } = [5] ++ [32768] ∧ State.reset.stack = [] := by
  decide

theorem witness_OutRule : State.reset.valueOf (.lit 32767) = some 32767 := by decide

/-- The buffer, a line, the empty line, and the closed input. -/
theorem witness_InRule :
    State.pending { State.reset with pending := [98, 10] } = 98 :: [10] ∧
    (let s : State := { State.reset with inPort := [.line [32767], .closed] }
     s.pending = [] ∧ s.inPort = .line [32767] :: [.closed] ∧ ([32767] : List Value) ++ [10] = 32767 :: [10]) ∧
    (let s : State := { State.reset with inPort := [.line []] }
     s.pending = [] ∧ s.inPort = .line [] :: [] ∧ ([] : List Value) ++ [10] = 10 :: []) ∧
    Operand.isReg (.lit 5) = false ∧
    (let s : State := { State.reset with inPort := [.closed] }
     s.pending = [] ∧ s.inPort = .closed :: []) := by decide

theorem witness_InWaitsForTheHost : (State.reset.pending = [] ∧ State.reset.inPort = []) ∧
    (let s : State := { State.reset with inPort := [.nothingYet, .line []] }
     s.pending = [] ∧ s.inPort = .nothingYet :: [.line []]) := by decide

theorem witness_OnlyTheDestinationRegisterChanges : exec .noop State.reset = .next { State.reset with pc := 1 } ∧
    Instr.destination .noop ≠ some (.reg 0) ∧ Instr.destination (.set (.reg 1) (.lit 5)) ≠ some (.reg 0) := by
  exact ⟨rfl, by decide, by decide⟩

theorem witness_OnlyWmemChangesMemory : exec .noop State.reset = .next { State.reset with pc := 1 } ∧
    ∀ a b : Operand, Instr.noop ≠ .wmem a b := ⟨rfl, nofun⟩

theorem witness_WmemChangesOneCell :
    exec (.wmem (.lit 0) (.invalid 32776)) State.reset = .next (State.reset.faultAt 3 .invalidAddress 32776) ∧
    State.reset.valueOf (.lit 0) = some 0 ∧
    exec (.wmem (.invalid 32776) (.lit 0)) State.reset = .next (State.reset.faultAt 3 .invalidAddress 32776) ∧
    State.reset.valueOf (.invalid 32776) = none := ⟨rfl, rfl, rfl, rfl⟩

theorem witness_OnlyStackInstructionsChangeTheStack : exec .noop State.reset = .next { State.reset with pc := 1 } ∧
    (∀ a : Operand, Instr.noop ≠ .push a) ∧ (∀ a : Operand, Instr.noop ≠ .pop a) ∧ (∀ a : Operand, Instr.noop ≠ .call a) ∧
    Instr.noop ≠ .ret := ⟨rfl, nofun, nofun, nofun, nofun⟩

theorem witness_OnlyInUsesTheTransceiver :
    (exec .noop State.reset = .next { State.reset with pc := 1 } ∧ ∀ a : Operand, Instr.noop ≠ .in_ a) ∧
    (let s : State := { State.reset with pending := [10] }
     exec (.in_ (.lit 0)) s = .next (State.faultAt { s with pending := [] } 2 .invalidRegister 0) ∧ s.pending ≠ []) :=
  ⟨⟨rfl, nofun⟩, rfl, nofun⟩

theorem witness_OutputGrowsByOutAlone :
    exec (.out (.lit 32767)) State.reset = .next { State.reset with pc := 2, outStream := [32767] } := rfl

theorem witness_OnlyJumpsAssignThePc : exec .noop State.reset = .next { State.reset with pc := 1 } ∧
    (∀ a : Operand, Instr.noop ≠ .jmp a) ∧ (∀ a b : Operand, Instr.noop ≠ .jt a b) ∧
    (∀ a b : Operand, Instr.noop ≠ .jf a b) ∧ (∀ a : Operand, Instr.noop ≠ .call a) ∧ Instr.noop ≠ .ret ∧
    ∀ a : Operand, Instr.noop ≠ .in_ a := ⟨rfl, nofun, nofun, nofun, nofun, nofun, nofun⟩

theorem witness_RunEndsWithOneDump : State.reset.status = .running ∧
    exec .noop State.reset = .next { State.reset with pc := 1 } ∧ exec .ret State.reset = .next State.reset.haltedAfter ∧
    exec (.jmp (.invalid 65535)) State.reset = .next (State.reset.faultAt 2 .invalidAddress 65535) := ⟨rfl, rfl, rfl, rfl⟩

theorem witness_FaultsArePrecise : State.reset.status = .running ∧
    exec (.jmp (.invalid 65535)) State.reset = .next (State.reset.faultAt 2 .invalidAddress 65535) ∧
    (State.reset.faultAt 2 .invalidAddress 65535).status = .faulted .invalidAddress 65535 ∧
    (∀ a : Operand, Instr.jmp (.invalid 65535) ≠ .pop a) ∧ (∀ a : Operand, Instr.jmp (.invalid 65535) ≠ .in_ a) ∧
    ∀ a : Operand, Instr.jmp (.invalid 65535) ≠ .call a := ⟨rfl, rfl, rfl, nofun, nofun, nofun⟩

/-- A cell that held 65535 and holds 32767 afterwards. -/
theorem witness_ChangedCellsHoldValues :
    let s : State := { State.reset with mem := Memory.placeWords [] 32767 [65535] }
    after (exec (.wmem (.lit 32767) (.lit 32767)) s) (fun t => (t.mem.readCell 32767, s.mem.readCell 32767)) =
      some (32767, 65535) := by decide

theorem witness_NextFetchSeesTheStore : State.reset.valueOf (.lit 3) = some 3 ∧ State.reset.valueOf (.lit 32767) = some 32767 ∧
    State.reset.pc.toNat + 3 = (3 : Value).toNat := by decide

theorem witness_CallThenRetReturns : State.reset.valueOf (.reg 7) = some 0 := by decide

theorem witness_HostAnswersReachOnlyAnAskingIn :
    (∀ a : Operand, Instr.noop = .in_ a → State.reset.pending ≠ []) ∧
    exec .noop State.reset = .next { State.reset with pc := 1 } ∧
    (∀ a : Operand, Instr.in_ (.lit 0) = .in_ a → State.pending { State.reset with pending := [10] } ≠ []) :=
  ⟨nofun, rfl, fun _ _ => nofun⟩

/-- A running and an ended state that meet the invariant, with pc, stack and memory at their bounds, and a step of each. -/
theorem witness_StepKeepsTheInvariant :
    (let s : State := { State.reset with pc := 32768, stack := [32768], mem := [(65535, 255)] }
     s.inv = true ∧ step s = .next (s.faultAt 0 .fetchOutOfRange 32768)) ∧
    (let s : State := { State.reset with status := .halted, pc := 32768, diagStream := [⟨32768, State.reset.regs⟩] }
     s.inv = true ∧ step s = .next s) := ⟨⟨by decide, rfl⟩, ⟨by decide, rfl⟩⟩

theorem witness_LoadMeetsTheInvariant : State.inv { State.reset with pc := 32768, stack := [32768] } = true := by decide

end Sys2Proof.Tests
end

section
/-! Operand words: the three classes of a raw word, and what Resolve answers for each (30_encoding.md R75, R77). -/

namespace Sys2Proof.Machine

/-! ### A fault after n fetched words -/

@[simp] theorem State.past_zero (s : State) : s.past 0 = s := by simp [State.past]

/-- A fault raised once the n words of an instruction are fetched, as the statements write it. -/
theorem raise_past (s : State) (n : Nat) (cause : Fault) (info : Word) :
    raise cause info (s.past n) = s.faultAt (BitVec.ofNat 16 n) cause info := rfl

theorem raise_eq_faultAt_zero (s : State) (cause : Fault) (info : Word) :
    raise cause info s = s.faultAt 0 cause info := by
  simpa using raise_past s 0 cause info

/-! ### Resolve on a raw word -/

theorem resolve_ofWord_of_invalid (s : State) (w : Word) (h : 32776 ≤ w.toNat) :
    resolve (.ofWord w) s = .ended (raise .invalidAddress w s) := by
  rw [Operand.ofWord_of_invalid w h, resolve]

/-! ### The obligations -/

/-- Settles O4: each class's bound makes the literal's number, or the register's index, fit its type. -/
theorem operandWordClasses : Obligations.OperandWordClasses := by
  intro w
  refine ⟨fun hlit => ?_, fun hbase htop => ?_, Operand.ofWord_of_invalid w⟩
  · have hlt : w.toNat < 2 ^ 15 := by omega
    exact ⟨.ofNatLT w.toNat hlt, Operand.ofWord_eq_lit w _ rfl, rfl⟩
  · have hlt : w.toNat - 32768 < 8 := by omega
    have hword : w.toNat = 32768 + (w.toNat - 32768) := by omega
    exact ⟨⟨w.toNat - 32768, hlt⟩, Operand.ofWord_eq_reg w _ hword, rfl⟩

/-- Settles O5: the class of the word decides the operand, and Resolve has one answer for each kind of operand. -/
theorem resolveByClass : Obligations.ResolveByClass := by
  intro s w
  refine ⟨fun v hv => ?_, fun r hr => ?_, fun hw => ?_⟩
  · rw [Operand.ofWord_eq_lit w v hv, resolve]
  · rw [Operand.ofWord_eq_reg w r hr, resolve]
  · rw [resolve_ofWord_of_invalid s w hw, raise_eq_faultAt_zero]

end Sys2Proof.Machine
end

section
/-! noop (40_halt_noop.md R101). -/

namespace Sys2Proof.Machine

/-- The only effect of noop is the move past its opcode word. -/
theorem exec_noop (s : State) : exec .noop s = .next (s.past 1) := rfl

/-- Settles O17: the state past one word differs from `s` in the pc alone, which is A + 1. -/
theorem noopRule : Obligations.NoopRule := by
  intro s
  have hpast : s.past 1 = { s with pc := s.pc + 1 } := rfl
  rw [exec_noop, hpast]

end Sys2Proof.Machine
end

section
/-! set, push and pop (41_set_push_pop.md R110 to R112), with the rules of Store they share with not and rmem. -/

namespace Sys2Proof.Machine

open Sys2Proof.Claims

/-! ### Words that hold a value -/

theorem eq_widen {w : Word} {v : Value} (h : w.toNat = v.toNat) : w = widen v :=
  BitVec.eq_of_toNat_eq (by rw [widen_toNat, h])

/-- Every word below the invalid class holds a value in every state. -/
theorem exists_valueOf_ofWord (s : State) (w : Word) (h : w.toNat ≤ 32775) : ∃ v, s.valueOf (.ofWord w) = some v := by
  rcases Nat.lt_or_ge w.toNat 32768 with hlit | hreg
  · rw [Operand.ofWord_of_literal w hlit]
    exact ⟨_, rfl⟩
  · rw [Operand.ofWord_of_register w hreg h]
    exact ⟨_, rfl⟩

/-- A word that resolves is stored as its value: Store's resolution of that value is the value itself (R78). -/
theorem store_of_resolve (a : Operand) {w : Word} {v : Value} {s : State} (h : resolve (.ofWord w) s = .ok v s) :
    store a w s = store a (widen v) s := by
  rw [store, store, h, Operand.ofWord_widen, resolve]

theorem resolve_past_of_valueOf (n : Nat) {s : State} {o : Operand} {v : Value} (h : s.valueOf o = some v) :
    resolve o (s.past n) = .ok v (s.past n) :=
  resolve_of_valueOf h rfl

/-! ### The shape of set and not -/

/-- Resolve b, then Store a function of its value: that is the whole rule, when the function gives what `result` allows. -/
theorem unaryRule_of_exec {mk : Operand → Operand → Instr} {result : Value → Value → Prop} (f : Value → Value)
    (hexec : ∀ a b s, exec (mk a b) s = finish ((resolve b (s.past 3)).andThen fun vb s => store a (widen (f vb)) s))
    (hresult : ∀ vb v, result vb v → v = f vb) : UnaryRule mk result := by
  refine ⟨fun s r b vb v hb hv => ?_, fun s a w => ?_, fun s a b vb hb ha => ?_⟩
  · obtain rfl := hresult vb v hv
    rw [hexec, resolve_past_of_valueOf 3 hb, Res.andThen_ok, store_widen]
    rfl
  · rw [hexec, resolve, Res.andThen_ended, finish_ended, raise_past]
    rfl
  · rw [hexec, resolve_past_of_valueOf 3 hb, Res.andThen_ok, store_widen_of_not_reg ha, finish_ended, raise_past]
    rfl

/-- Settles O18: set is the unary shape with the identity as its function. -/
theorem setRule : Obligations.SetRule :=
  unaryRule_of_exec id (fun _ _ _ => rfl) fun _ _ h => h

/-! ### push -/

/-- The stack of this hardware is unbounded. -/
theorem exec_push (a : Operand) (s : State) : exec (.push a) s = finish (pushWithDepth none a s) := rfl

/-- Whatever the depth, an operand that holds a value leaves push with the state past its two words. -/
theorem pushWithDepth_of_valueOf (depth : Option Nat) {s : State} {a : Operand} {v : Value} (h : s.valueOf a = some v) :
    pushWithDepth depth a s = push depth (widen v) (s.past 2) := by
  rw [pushWithDepth, resolve_past_of_valueOf 2 h, Res.andThen_ok]

theorem pushWithDepth_invalid (depth : Option Nat) (w : Word) (s : State) :
    pushWithDepth depth (.invalid w) s = .ended (s.faultAt 2 .invalidAddress w) := by
  rw [pushWithDepth, resolve, Res.andThen_ended, raise_past]
  rfl

/-- Settles O19: the operand is resolved first, so the depth matters only once it holds a value. -/
theorem pushRule : Obligations.PushRule := by
  refine ⟨fun s a va e ha he => ?_, fun s w => ?_, fun s a va ha => ?_, fun s depth w => pushWithDepth_invalid depth w s⟩
  · rw [exec_push, pushWithDepth_of_valueOf none ha, push_none, eq_widen he]
    rfl
  · rw [exec_push, pushWithDepth_invalid, finish_ended]
  · rw [pushWithDepth_of_valueOf _ ha]
    exact push_full (widen va) (s.past 2)

/-! ### pop -/

/-- Store sees the state that has already lost its top entry (R79). -/
theorem exec_pop_of_append (a : Operand) {s : State} {below : List Word} {e : Word} (h : s.stack = below ++ [e]) :
    exec (.pop a) s = finish (store a e (State.past { s with stack := below } 2)) := by
  rw [exec, execPop, pop_append (s.past 2) below e h]
  rfl

/-- An entry that holds a value is stored as that value. -/
theorem exec_pop_of_valueOf (a : Operand) {s : State} {below : List Word} {e : Word} {v : Value}
    (h : s.stack = below ++ [e]) (hv : s.valueOf (.ofWord e) = some v) :
    exec (.pop a) s = finish (store a (widen v) (State.past { s with stack := below } 2)) := by
  rw [exec_pop_of_append a h]
  exact congrArg finish (store_of_resolve a (resolve_of_valueOf hv rfl))

theorem exec_pop_reg (r : Fin 8) {s : State} {below : List Word} {e : Word} {v : Value} (h : s.stack = below ++ [e])
    (hv : s.valueOf (.ofWord e) = some v) :
    exec (.pop (.reg r)) s = .next { s with pc := s.pc + 2, stack := below, regs := s.regs.set r v } := by
  rw [exec_pop_of_valueOf _ h hv, store_widen]
  rfl

/-- Settles O20: the entry's class decides what Store resolves it to, and the entry is gone before Store begins. -/
theorem popRule : Obligations.PopRule := by
  refine ⟨fun s r below e v h hv => exec_pop_reg r h ?_, fun s r q below e h hq => exec_pop_reg r h ?_,
    fun s a below e h he => ?_, fun s a below e h he ha => ?_, fun s a h => ?_⟩
  · rw [Operand.ofWord_eq_lit e v hv, State.valueOf]
  · rw [Operand.ofWord_eq_reg e q hq, State.valueOf]
  · rw [exec_pop_of_append a h, store_invalid a e _ he, finish_ended, raise_past]
    rfl
  · obtain ⟨v, hv⟩ := exists_valueOf_ofWord s e he
    rw [exec_pop_of_valueOf a h hv, store_widen_of_not_reg ha, finish_ended, raise_past]
    rfl
  · rw [exec, execPop, pop_empty (s.past 2) h, Res.andThen_ended, finish_ended, raise_past]
    rfl

end Sys2Proof.Machine
end

section
/-! eq and gt (42_compare.md R120, R121), with the shape they share with add, mul, and, or. -/

namespace Sys2Proof.Machine

open Sys2Proof.Claims

/-! ### The shape of eq, gt, add, mul, and, or -/

/-- Both sources are resolved in the state that has moved past the words, so only the Store is left. -/
theorem binary_past_of_valueOf (n : Nat) (f : Value → Value → Value) (a : Operand) {b c : Operand} {vb vc : Value}
    {s : State} (hb : s.valueOf b = some vb) (hc : s.valueOf c = some vc) :
    binary f a b c (s.past n) = store a (widen (f vb vc)) (s.past n) := by
  rw [binary, resolve_past_of_valueOf n hb, Res.andThen_ok, resolve_past_of_valueOf n hc, Res.andThen_ok]

/-- An instruction that runs `binary` on a function follows the whole rule, when the function gives what `result`
allows. -/
theorem binaryRule_of_exec {mk : Operand → Operand → Operand → Instr} {result : Value → Value → Value → Prop}
    (f : Value → Value → Value) (hexec : ∀ a b c s, exec (mk a b c) s = finish (binary f a b c (s.past 4)))
    (hresult : ∀ vb vc v, result vb vc v → v = f vb vc) : BinaryRule mk result := by
  refine ⟨fun s r b c vb vc v hb hc hv => ?_, fun s a c w => ?_, fun s a b vb w hb => ?_,
    fun s a b c vb vc hb hc ha => ?_⟩
  · obtain rfl := hresult vb vc v hv
    rw [hexec, binary_past_of_valueOf 4 f _ hb hc, store_widen]
    rfl
  · rw [hexec, binary, resolve, Res.andThen_ended, finish_ended, raise_past]
    rfl
  · rw [hexec, binary, resolve_past_of_valueOf 4 hb, Res.andThen_ok, resolve, Res.andThen_ended, finish_ended, raise_past]
    rfl
  · rw [hexec, binary_past_of_valueOf 4 f a hb hc, store_widen_of_not_reg ha, finish_ended, raise_past]
    rfl

/-! ### The comparisons -/

/-- A value that is 1 where p holds and 0 where it does not is what eq and gt store. -/
theorem eq_truthValue {p : Prop} [Decidable p] {v : Value} (h : (p ∧ v = 1) ∨ (¬ p ∧ v = 0)) : v = truthValue p := by
  rcases h with ⟨hp, rfl⟩ | ⟨hp, rfl⟩
  · simp [truthValue, hp]
  · simp [truthValue, hp]

/-- Settles O21: eq is the binary shape on the equality of two values, which is that of their numbers. -/
theorem eqRule : Obligations.EqRule := by
  refine binaryRule_of_exec (fun vb vc => truthValue (vb = vc)) (fun _ _ _ _ => rfl) fun vb vc v hv => eq_truthValue ?_
  rwa [← BitVec.toNat_inj]

/-- Settles O22: gt is the binary shape on the unsigned order, and the order of numbers is total. -/
theorem gtRule : Obligations.GtRule := by
  refine binaryRule_of_exec (fun vb vc => truthValue (vc.toNat < vb.toNat)) (fun _ _ _ _ => rfl)
    fun vb vc v hv => eq_truthValue ?_
  rwa [Nat.not_lt]

end Sys2Proof.Machine
end

section
/-! jmp (43_jumps.md R130), with the two answers of a jump that jt, jf and call share with it. -/

namespace Sys2Proof.Machine

/-! ### Jumping to an operand -/

/-- A target that holds a value becomes the pc, in any state with the same registers. -/
theorem jumpTo_of_valueOf {s u : State} {a : Operand} {v : Value} (h : s.valueOf a = some v) (hu : u.regs = s.regs) :
    jumpTo a u = .ok () (u.jump (widen v)) := by
  rw [jumpTo, resolve_of_valueOf h hu, Res.andThen_ok]

/-- A target of the invalid class faults before the pc is assigned. -/
theorem jumpTo_invalid (w : Word) (s : State) : jumpTo (.invalid w) s = .ended (raise .invalidAddress w s) := by
  rw [jumpTo, resolve, Res.andThen_ended]

/-- The pc a jump leaves does not depend on how many words were fetched. -/
@[simp] theorem State.jump_past (s : State) (n : Nat) (t : Word) : (s.past n).jump t = s.jump t := rfl

/-! ### jmp -/

theorem exec_jmp (a : Operand) (s : State) : exec (.jmp a) s = finish (jumpTo a (s.past 2)) := rfl

/-- Settles O23: the jump assigns the pc over the two fetched words, and only a fault leaves the pc after them. -/
theorem jmpRule : Obligations.JmpRule := by
  refine ⟨fun s a va t ha ht => ?_, fun s w => ?_⟩
  · rw [exec_jmp, jumpTo_of_valueOf ha (s.past_regs 2), State.jump_past, finish_ok, eq_widen ht]
    rfl
  · rw [exec_jmp, jumpTo_invalid, finish_ended, raise_past]
    rfl

end Sys2Proof.Machine
end

section
/-! add, mul, and, or and not (44_alu.md R140, R141, R143, R144, R146): the function each of them stores, on the binary and
unary shapes of eq, gt and set. -/

namespace Sys2Proof.Machine

open Sys2Proof.Claims

/-! ### Results reduced modulo 32768 -/

/-- Narrowing to 15 bits loses nothing of a number reduced modulo 32768. -/
theorem toNat_ofNat_mod_modulus (n : Nat) : (BitVec.ofNat 15 (n % Config.modulus)).toNat = n % 32768 := by
  rw [BitVec.toNat_ofNat, Config.modulus, Nat.mod_mod]

@[simp] theorem sum_toNat (vb vc : Value) : (sum vb vc).toNat = (vb.toNat + vc.toNat) % 32768 :=
  toNat_ofNat_mod_modulus _

@[simp] theorem product_toNat (vb vc : Value) : (product vb vc).toNat = (vb.toNat * vc.toNat) % 32768 :=
  toNat_ofNat_mod_modulus _

/-- Settles O26: a value is fixed by its number, so the one the rule allows is `sum`. -/
theorem addRule : Obligations.AddRule :=
  binaryRule_of_exec sum (fun _ _ _ _ => rfl) fun vb vc _ hv => BitVec.eq_of_toNat_eq (hv.trans (sum_toNat vb vc).symm)

/-- Settles O27: a value is fixed by its number, so the one the rule allows is `product`. -/
theorem mulRule : Obligations.MulRule :=
  binaryRule_of_exec product (fun _ _ _ _ => rfl)
    fun vb vc _ hv => BitVec.eq_of_toNat_eq (hv.trans (product_toNat vb vc).symm)

/-! ### Results fixed bit by bit -/

/-- Bits 0 to 14 of a value's number are all its bits. -/
theorem eq_of_testBit_toNat_eq {u v : Value} (h : ∀ i : Nat, i < 15 → u.toNat.testBit i = v.toNat.testBit i) : u = v :=
  BitVec.eq_of_getLsbD_eq h

/-- Subtracting from 32767 inverts each of the 15 bits (R146). -/
theorem complement_eq_not (vb : Value) : complement vb = ~~~vb := by
  apply BitVec.eq_of_toNat_eq
  rw [complement, BitVec.toNat_ofNat, BitVec.toNat_not]
  omega

theorem complement_testBit (vb : Value) {i : Nat} (hi : i < 15) :
    (complement vb).toNat.testBit i = !vb.toNat.testBit i := by
  rw [complement_eq_not, BitVec.testBit_toNat, BitVec.getLsbD_not, BitVec.testBit_toNat, decide_eq_true hi, Bool.true_and]

/-- Settles O29: the bits the rule allows are those of the bitwise and. -/
theorem andRule : Obligations.AndRule := by
  refine binaryRule_of_exec (fun vb vc => vb &&& vc) (fun _ _ _ _ => rfl) fun vb vc v hv =>
    eq_of_testBit_toNat_eq fun i hi => ?_
  rw [hv i hi, BitVec.toNat_and, Nat.testBit_and]

/-- Settles O30: the bits the rule allows are those of the bitwise or. -/
theorem orRule : Obligations.OrRule := by
  refine binaryRule_of_exec (fun vb vc => vb ||| vc) (fun _ _ _ _ => rfl) fun vb vc v hv =>
    eq_of_testBit_toNat_eq fun i hi => ?_
  rw [hv i hi, BitVec.toNat_or, Nat.testBit_or]

/-- Settles O31: the bits the rule allows are those of the complement. -/
theorem notRule : Obligations.NotRule :=
  unaryRule_of_exec complement (fun _ _ _ => rfl) fun vb _ hv =>
    eq_of_testBit_toNat_eq fun i hi => (hv i hi).trans (complement_testBit vb hi).symm

end Sys2Proof.Machine
end

section
/-! rmem and wmem (45_rmem_wmem.md R160, R161). -/

namespace Sys2Proof.Machine

/-! ### rmem -/

/-- With a value for the address, rmem is the Store of the addressed cell's content. -/
theorem exec_rmem_of_valueOf (a : Operand) {s : State} {b : Operand} {addr : Value} (hb : s.valueOf b = some addr) :
    exec (.rmem a b) s = finish (store a (s.mem.readCell addr.toNat) (s.past 3)) := by
  rw [exec, execRmem, resolve_past_of_valueOf 3 hb, Res.andThen_ok, State.past_mem]

/-- A content that holds a value is stored as that value. -/
theorem exec_rmem_of_content (a : Operand) {s : State} {b : Operand} {addr v : Value} (hb : s.valueOf b = some addr)
    (hv : s.valueOf (.ofWord (s.mem.readCell addr.toNat)) = some v) :
    exec (.rmem a b) s = finish (store a (widen v) (s.past 3)) := by
  rw [exec_rmem_of_valueOf a hb, store_of_resolve a (resolve_past_of_valueOf 3 hv)]

theorem exec_rmem_reg (r : Fin 8) {s : State} {b : Operand} {addr v : Value} (hb : s.valueOf b = some addr)
    (hv : s.valueOf (.ofWord (s.mem.readCell addr.toNat)) = some v) :
    exec (.rmem (.reg r) b) s = .next { s with pc := s.pc + 3, regs := s.regs.set r v } := by
  rw [exec_rmem_of_content _ hb hv, store_widen]
  rfl

/-- Settles O32: the content's class decides what Store resolves it to, and the destination is checked only after that. -/
theorem rmemRule : Obligations.RmemRule := by
  refine ⟨fun s r b addr v hb hv => exec_rmem_reg r hb ?_, fun s r q b addr hb hq => exec_rmem_reg r hb ?_,
    fun s a w => ?_, fun s a b addr hb hw => ?_, fun s a b addr hb hw ha => ?_⟩
  · rw [Operand.ofWord_eq_lit _ v hv, State.valueOf]
  · rw [Operand.ofWord_eq_reg _ q hq, State.valueOf]
  · rw [exec, execRmem, resolve, Res.andThen_ended, finish_ended, raise_past]
    rfl
  · rw [exec_rmem_of_valueOf a hb, store_invalid a _ _ hw, finish_ended, raise_past]
    rfl
  · obtain ⟨v, hv⟩ := exists_valueOf_ofWord s _ hw
    rw [exec_rmem_of_content a hb hv, store_widen_of_not_reg ha, finish_ended, raise_past]
    rfl

/-! ### wmem -/

/-- With a value in both operands, wmem writes one cell. -/
theorem exec_wmem_of_valueOf {s : State} {a b : Operand} {addr v : Value} (ha : s.valueOf a = some addr)
    (hb : s.valueOf b = some v) :
    exec (.wmem a b) s = .next { s with pc := s.pc + 3, mem := s.mem.writeCell addr.toNat (widen v) } := by
  rw [exec, execWmem, resolve_past_of_valueOf 3 ha, Res.andThen_ok, resolve_past_of_valueOf 3 hb, Res.andThen_ok, finish_ok]
  rfl

/-- Settles O33: a written cell reads back what was written and every other cell what it held. -/
theorem wmemRule : Obligations.WmemRule := by
  refine ⟨fun s a b addr v ha hb => ⟨_, exec_wmem_of_valueOf ha hb, ?_, fun x hx => ?_⟩, fun s b w => ?_,
    fun s a addr w ha => ?_⟩
  · rw [Memory.readCell_writeCell_self, widen_toNat]
  · exact Memory.readCell_writeCell_ne s.mem addr.toNat x (widen v) hx
  · rw [exec, execWmem, resolve, Res.andThen_ended, finish_ended, raise_past]
    rfl
  · rw [exec, execWmem, resolve_past_of_valueOf 3 ha, Res.andThen_ok, resolve, Res.andThen_ended, finish_ended, raise_past]
    rfl

end Sys2Proof.Machine
end

section
/-! The fatal fetch of an unknown opcode word (60_exceptions.md R204). -/

namespace Sys2Proof.Machine

/-- A running machine whose fetch ends the run stops in the state the fetch leaves. -/
theorem step_of_fetchInstr_ended {s t : State} (hrun : s.status = .running) (hfetch : fetchInstr s = .ended t) :
    step s = .next t := by
  simp only [step, hrun, hfetch]

/-- A word of 22 or more announces no operands: the fetch ends one cell further, before any operand word is read. -/
theorem fetchInstr_of_unknownOpcode {s : State} (hpc : s.pc.toNat < 32768)
    (hop : 22 ≤ (s.mem.readCell s.pc.toNat).toNat) :
    fetchInstr s = .ended (raise .unknownOpcode (s.mem.readCell s.pc.toNat) (s.past 1)) := by
  simp only [fetchInstr, fetchCell_of_lt s hpc, Res.andThen_ok, shapeOf_eq_none _ hop]

/-- Settles O7: the fetch raises the fault past the opcode word, and that state is the step's. -/
theorem unknownOpcodeIsFatal : Obligations.UnknownOpcodeIsFatal := by
  intro s hrun hpc hop
  have hfetch := fetchInstr_of_unknownOpcode (Nat.lt_succ_of_le hpc) hop
  rw [step_of_fetchInstr_ended hrun hfetch, raise_past]
  rfl

end Sys2Proof.Machine
end

section
/-! Reset with a well-formed image (70_reset_and_hazards.md R241, R242). -/

namespace Sys2Proof

/-- Two bytes always fit the word they make. -/
theorem wordOfBytes_toNat (lo hi : Byte) : (wordOfBytes lo hi).toNat = lo.toNat + 256 * hi.toNat := by
  have hfits : lo.toNat + 256 * hi.toNat < 2 ^ 16 := by omega
  rw [wordOfBytes, BitVec.toNat_ofNat, Nat.mod_eq_of_lt hfits]

end Sys2Proof

namespace Sys2Proof.Machine

/-- The loader refuses an image only for an odd length or for more than 65536 bytes. -/
theorem State.load_of_wellFormed (u : State) {image : List Byte} (heven : image.length % 2 = 0)
    (hfits : image.length ≤ 65536) : State.load u image = { State.reset with mem := Memory.ofBytes 0 image } := by
  have hodd : ¬ image.length % 2 = 1 := by omega
  have hlong : ¬ Config.maxImageBytes < image.length := Nat.not_lt.mpr hfits
  rw [State.load, if_neg hodd, if_neg hlong]

/-- A cell of the memory an image gives holds the image's two bytes at its offsets, 0 for a byte beyond the end. -/
theorem Memory.readCell_ofBytes_zero (image : List Byte) (a : Nat) :
    (Memory.ofBytes 0 image).readCell a = wordOfBytes (image.getD (2 * a) 0) (image.getD (2 * a + 1) 0) := by
  have hbyte (k : Nat) : (Memory.ofBytes 0 image).readByte k = image.getD k 0 := by
    simpa using Memory.readByte_ofBytes image 0 k
  rw [Memory.readCell, hbyte, hbyte]

/-- Settles O13: both clauses read one cell of the image's memory; at or beyond the image's end both its bytes are the
default 0. -/
theorem imageFillsMemory : Obligations.ImageFillsMemory := by
  intro u image heven hfits a _
  have hcell : (State.load u image).mem.readCell a
      = wordOfBytes (image.getD (2 * a) 0) (image.getD (2 * a + 1) 0) := by
    rw [State.load_of_wellFormed u heven hfits]
    exact Memory.readCell_ofBytes_zero image a
  rw [hcell]
  refine ⟨fun _ => wordOfBytes_toNat _ _, fun hend => ?_⟩
  rw [List.getD_eq_default _ _ hend, List.getD_eq_default _ _ (Nat.le_succ_of_le hend)]
  rfl

end Sys2Proof.Machine
end

section
/-! Decoding and encoding (30_encoding.md R70, R75, R80, R84): an opcode word announces a shape, and a shape makes an
instruction of a list of operands. -/

namespace Sys2Proof

/-! ### The instruction a shape makes of its operands -/

/-- The instruction a shape makes of exactly as many operands as it lacks. -/
def Shape.make : Shape → List Operand → Option Instr
  | .zero i, [] => some i
  | .one f, [a] => some (f a)
  | .two f, [a, b] => some (f a b)
  | .three f, [a, b, c] => some (f a b c)
  | _, _ => none

/-- Each row of the opcode table: the opcode's shape makes the instruction of its own operands. -/
theorem exists_shapeOf_opcode (i : Instr) : ∃ sh, shapeOf i.opcode = some sh ∧ sh.make i.operands = some i := by
  cases i <;> exact ⟨_, rfl, rfl⟩

/-- What a shape makes, it builds of the operands it was given. -/
theorem Shape.build_of_make {sh : Shape} {os : List Operand} {i : Instr} (h : sh.make os = some i) :
    os.length + 1 = sh.words ∧ ∃ a b c, i = sh.build a b c ∧ os = [a, b, c].take (sh.words - 1) := by
  unfold Shape.make at h
  split at h
  case h_1 => cases h; exact ⟨rfl, .lit 0, .lit 0, .lit 0, rfl, rfl⟩
  case h_2 f a => cases h; exact ⟨rfl, a, .lit 0, .lit 0, rfl, rfl⟩
  case h_3 f a b => cases h; exact ⟨rfl, a, b, .lit 0, rfl, rfl⟩
  case h_4 f a b c => cases h; exact ⟨rfl, a, b, c, rfl, rfl⟩
  case h_5 => cases h

/-- The operands of a row of the table, in the order its shape takes them. -/
theorem operands_build {op : Word} {sh : Shape} (h : shapeOf op = some sh) (a b c : Operand) :
    (sh.build a b c).operands = [a, b, c].take (sh.words - 1) := by
  unfold shapeOf at h
  split at h <;> cases h <;> rfl

theorem opcode_of_make {op : Word} {sh : Shape} {os : List Operand} {i : Instr} (hsh : shapeOf op = some sh)
    (h : sh.make os = some i) : i.opcode = op ∧ i.operands = os := by
  obtain ⟨-, a, b, c, rfl, rfl⟩ := Shape.build_of_make h
  exact ⟨opcode_build op sh hsh a b c, operands_build hsh a b c⟩

/-! ### decode by shape -/

theorem decode_of_make {op : Word} {sh : Shape} {args : List Word} {i : Instr} (rest : List Word)
    (hsh : shapeOf op = some sh) (h : sh.make (args.map .ofWord) = some i) :
    decode (op :: args ++ rest) = .ok (i, rest) := by
  match sh, args, h with
  | .zero j, [], rfl => simp only [decode, hsh, List.nil_append, List.cons_append]
  | .one f, [a], rfl => simp only [decode, hsh, List.nil_append, List.cons_append]
  | .two f, [a, b], rfl => simp only [decode, hsh, List.nil_append, List.cons_append]
  | .three f, [a, b, c], rfl => simp only [decode, hsh, List.nil_append, List.cons_append]

/-- Decoding succeeds only by the shape of the first word and the operand words after it. -/
theorem decode_eq_ok {ws rest : List Word} {i : Instr} (h : decode ws = .ok (i, rest)) :
    ∃ op sh args, ws = op :: args ++ rest ∧ shapeOf op = some sh ∧ sh.make (args.map .ofWord) = some i := by
  unfold decode at h
  split at h
  · cases h
  · rename_i op ws
    split at h
    · cases h
    · rename_i j hsh
      cases h
      exact ⟨op, _, [], rfl, hsh, rfl⟩
    all_goals rename_i f hsh; split at h <;> cases h
    · exact ⟨op, _, [_], rfl, hsh, rfl⟩
    · exact ⟨op, _, [_, _], rfl, hsh, rfl⟩
    · exact ⟨op, _, [_, _, _], rfl, hsh, rfl⟩

/-! ### The obligations -/

/-- Settles O1: the opcode's shape takes back the operands, each of which its own word stands for. -/
theorem decodeOfEncode : Obligations.DecodeOfEncode := by
  intro i rest hwf
  obtain ⟨sh, hsh, hmake⟩ := exists_shapeOf_opcode i
  have hops : (i.operands.map Operand.word).map Operand.ofWord = i.operands := by
    rw [List.map_map]
    exact (List.map_congr_left fun o ho => Operand.ofWord_word o (List.all_eq_true.mp hwf o ho)).trans (List.map_id _)
  exact decode_of_make rest hsh (hops.symm ▸ hmake)

/-- Settles O2: what the shape made has the opcode word read and the operands of the words after it, and a classified word
keeps all its bits. -/
theorem encodeOfDecode : Obligations.EncodeOfDecode := by
  intro ws i rest h
  obtain ⟨op, sh, args, rfl, hsh, hmake⟩ := decode_eq_ok h
  obtain ⟨hop, hops⟩ := opcode_of_make hsh hmake
  constructor
  · rw [Instr.wf, hops, List.all_map]
    exact List.all_eq_true.mpr fun w _ => Operand.wf_ofWord w
  · have hwords : (Operand.word ∘ Operand.ofWord) = id := funext Operand.word_ofWord
    rw [encode, hop, hops, List.map_map, hwords, List.map_id]

/-- Settles O3: each sequence is read by its first word's row of the table. -/
theorem sampleWordsDecode : Obligations.SampleWordsDecode := by
  exact ⟨rfl, rfl, rfl, rfl, rfl, rfl, rfl, rfl⟩

end Sys2Proof
end

section
/-! The instruction cycle (30_encoding.md R73, R74): which instruction a step runs, and where the fetch ends the run. -/

namespace Sys2Proof.Machine

/-! ### One step by the status and the fetch -/

theorem step_of_not_running {s : State} (h : s.status ≠ .running) : step s = .next s := by
  unfold step
  split
  · contradiction
  · rfl
  · rfl

theorem step_of_fetchInstr_ok {s t : State} {i : Instr} (hrun : s.status = .running) (hfetch : fetchInstr s = .ok i t) :
    step s = exec i s := by
  simp only [step, hrun, hfetch]

/-! ### Fetching the words that decode reads -/

/-- The cells from an address on begin with a word only if that word is the cell's content. -/
theorem Memory.wordsFrom_eq_cons {m : Memory} {a n : Nat} {w : Word} {ws : List Word}
    (h : m.wordsFrom a n = w :: ws) : a < 32768 ∧ m.readCell a = w ∧ m.wordsFrom (a + 1) (n - 1) = ws := by
  rcases Nat.lt_or_ge a 32768 with hlt | hge
  · cases n with
    | zero => cases h
    | succ n =>
      rw [Memory.wordsFrom_of_lt m a n hlt] at h
      cases h
      exact ⟨hlt, rfl, rfl⟩
  · rw [Memory.wordsFrom_of_ge m a n hge] at h
    cases h

theorem fetchCell_of_wordsFrom {s : State} {n : Nat} {w : Word} {ws : List Word}
    (h : s.mem.wordsFrom s.pc.toNat n = w :: ws) :
    fetchCell s = .ok w (s.past 1) ∧ (s.past 1).mem.wordsFrom (s.past 1).pc.toNat (n - 1) = ws := by
  obtain ⟨hlt, hw, hws⟩ := Memory.wordsFrom_eq_cons h
  rw [past_toNat s 1 (by omega), fetchCell_of_lt s hlt, hw]
  exact ⟨rfl, hws⟩

theorem fetchOperand_of_wordsFrom {s : State} {n : Nat} {w : Word} {ws : List Word}
    (h : s.mem.wordsFrom s.pc.toNat n = w :: ws) :
    fetchOperand s = .ok (.ofWord w) (s.past 1) ∧ (s.past 1).mem.wordsFrom (s.past 1).pc.toNat (n - 1) = ws := by
  obtain ⟨hfetch, hws⟩ := fetchCell_of_wordsFrom h
  rw [fetchOperand, hfetch]
  exact ⟨rfl, hws⟩

/-- The instruction decoded from the words at the pc is the one fetched: each operand word the shape takes is there. -/
theorem fetchInstr_of_decode {s : State} {i : Instr} {rest : List Word} (h : decode s.codeWords = .ok (i, rest)) :
    ∃ t, fetchInstr s = .ok i t := by
  obtain ⟨op, sh, args, hws, hsh, hmake⟩ := decode_eq_ok h
  obtain ⟨hop, h1⟩ := fetchCell_of_wordsFrom hws
  match sh, args, hmake with
  | .zero j, [], rfl => exact ⟨_, by simp only [fetchInstr, hop, Res.andThen_ok, hsh]; rfl⟩
  | .one f, [a], rfl =>
    obtain ⟨ha, -⟩ := fetchOperand_of_wordsFrom h1
    exact ⟨_, by simp only [fetchInstr, hop, Res.andThen_ok, hsh, ha]; rfl⟩
  | .two f, [a, b], rfl =>
    obtain ⟨ha, h2⟩ := fetchOperand_of_wordsFrom h1
    obtain ⟨hb, -⟩ := fetchOperand_of_wordsFrom h2
    exact ⟨_, by simp only [fetchInstr, hop, Res.andThen_ok, hsh, ha, hb]; rfl⟩
  | .three f, [a, b, c], rfl =>
    obtain ⟨ha, h2⟩ := fetchOperand_of_wordsFrom h1
    obtain ⟨hb, h3⟩ := fetchOperand_of_wordsFrom h2
    obtain ⟨hc, -⟩ := fetchOperand_of_wordsFrom h3
    exact ⟨_, by simp only [fetchInstr, hop, Res.andThen_ok, hsh, ha, hb, hc]; rfl⟩

/-- Settles O6: decode and the fetch read the same words, and nothing stands around exec. -/
theorem stepRunsDecodedInstruction : Obligations.StepRunsDecodedInstruction := by
  intro s i rest hrun hdec
  obtain ⟨t, hfetch⟩ := fetchInstr_of_decode hdec
  exact step_of_fetchInstr_ok hrun hfetch

/-! ### halt by a zero cell -/

theorem exec_halt (s : State) : exec .halt s = .next s.haltedAfter := rfl

/-- Settles O11: the word 0 decodes to halt, whatever follows it. -/
theorem zeroCellHalts : Obligations.ZeroCellHalts := by
  intro s hrun hpc hcell
  have hdec : decode s.codeWords = .ok (.halt, s.mem.wordsFrom (s.pc.toNat + 1) 3) := by
    rw [State.codeWords, Memory.wordsFrom_of_lt _ _ _ (Nat.lt_succ_of_le hpc), hcell]
    rfl
  rw [stepRunsDecodedInstruction s _ _ hrun hdec, exec_halt]

/-- Settles O16: halt ends the run, and the step of an ended machine answers its own state. -/
theorem haltRule : Obligations.HaltRule :=
  fun s => ⟨exec_halt s, step_of_not_running nofun⟩

/-! ### Fetching beyond the last cell -/

/-- The state of a run that ended at an operand fetch beyond the last cell. -/
def State.ranPastMemory (s : State) : State := raise .fetchOutOfRange 32768 (s.jump 32768)

/-- How many words were fetched before does not show in it. -/
@[simp] theorem State.ranPastMemory_past (s : State) (n : Nat) : (s.past n).ranPastMemory = s.ranPastMemory := rfl

/-- An operand fetch ends the run at the end of memory, if all that follows from an operand fetched before it does. -/
theorem fetchOperand_andThen_ranPastMemory {α : Type} {s : State} {k : Operand → State → Res α}
    (hpc : s.pc.toNat ≤ 32768) (hk : ∀ o, s.pc.toNat < 32768 → k o (s.past 1) = .ended s.ranPastMemory) :
    (fetchOperand s).andThen k = .ended s.ranPastMemory := by
  rcases Nat.lt_or_eq_of_le hpc with hlt | heq
  · rw [fetchOperand_of_lt s hlt, Res.andThen_ok, hk _ hlt]
  · have hend : s.pc = 32768 := BitVec.eq_of_toNat_eq heq
    rw [fetchOperand_of_ge s (Nat.le_of_eq heq.symm), Res.andThen_ended, hend, State.ranPastMemory, State.jump, ← hend]

/-- An instruction that reaches beyond the last cell is not fetched whole. -/
theorem fetchInstr_of_straddle {s : State} {sh : Shape} (hpc : s.pc.toNat < 32768)
    (hsh : shapeOf (s.mem.readCell s.pc.toNat) = some sh) (hend : 32768 < s.pc.toNat + sh.words) :
    fetchInstr s = .ended s.ranPastMemory := by
  have h1 := past_toNat s 1 (by omega)
  have h2 := past_toNat (s.past 1) 1 (by omega)
  have h3 := past_toNat ((s.past 1).past 1) 1 (by omega)
  rw [fetchInstr, fetchCell_of_lt s hpc, Res.andThen_ok, hsh]
  cases sh with simp only [Shape.words] at hend
  | zero i => omega
  | one f =>
    refine fetchOperand_andThen_ranPastMemory (by omega) fun a ha => ?_
    omega
  | two f =>
    refine fetchOperand_andThen_ranPastMemory (by omega) fun a ha => ?_
    refine fetchOperand_andThen_ranPastMemory (by omega) fun b hb => ?_
    omega
  | three f =>
    refine fetchOperand_andThen_ranPastMemory (by omega) fun a ha => ?_
    refine fetchOperand_andThen_ranPastMemory (by omega) fun b hb => ?_
    refine fetchOperand_andThen_ranPastMemory (by omega) fun c hc => ?_
    omega

/-- Settles O8: a pc beyond memory ends the opcode fetch; otherwise the opcode word fixes how many operand words are missing,
and the fetch ends at the first of them. -/
theorem fetchPastTheEndIsFatal : Obligations.FetchPastTheEndIsFatal := by
  refine ⟨fun s hrun hpc => ?_, fun s i hrun hpc hop hend => ?_⟩
  · have hfetch : fetchInstr s = .ended (raise .fetchOutOfRange s.pc s) := by
      rw [fetchInstr, fetchCell_of_ge s hpc, Res.andThen_ended]
    rw [step_of_fetchInstr_ended hrun hfetch, raise_eq_faultAt_zero]
  · obtain ⟨sh, hsh, hmake⟩ := exists_shapeOf_opcode i
    have hlen : i.length = sh.words := (Nat.add_comm ..).trans (Shape.build_of_make hmake).1
    rw [hlen] at hend
    rw [step_of_fetchInstr_ended hrun (fetchInstr_of_straddle (Nat.lt_succ_of_le hpc) (hop ▸ hsh) hend)]
    rfl

/-! ### Every step -/

/-- Settles O9, by induction on the number of steps. -/
theorem endedMachineNeverChanges : Obligations.EndedMachineNeverChanges := by
  intro s hended k
  have hstep : core.step s = .next s := step_of_not_running (of_decide_eq_true hended)
  induction k with
  | zero => rfl
  | succ k ih => simp only [Host.Core.run, hstep, ih]

/-- Settles O10: an ended machine answers itself, an ended fetch the state it leaves, and every instruction one of its
effects. -/
theorem everyStepAnswersNext : Obligations.EveryStepAnswersNext := by
  intro s
  by_cases hrun : s.status = .running
  · cases hfetch : fetchInstr s with
    | ok i u =>
      obtain ⟨t, ht, -⟩ := exec_effect i s
      exact ⟨t, (step_of_fetchInstr_ok hrun hfetch).trans ht⟩
    | ended t => exact ⟨t, step_of_fetchInstr_ended hrun hfetch⟩
  · exact ⟨s, step_of_not_running hrun⟩

/-! ### Placing an instruction at the pc -/

theorem Memory.readCell_placeWords_of_lt (ws : List Word) (m : Memory) {a x : Nat} (h : x < a) :
    (m.placeWords a ws).readCell x = m.readCell x := by
  induction ws generalizing m a with
  | nil => rfl
  | cons w rest ih =>
    unfold Memory.placeWords
    split
    · rw [ih _ (Nat.lt_succ_of_lt h), Memory.readCell_writeCell_ne _ _ _ _ (Nat.ne_of_lt h)]
    · rfl

/-- Words placed where they fit are the words there. -/
theorem Memory.wordsFrom_placeWords (ws : List Word) (m : Memory) (a : Nat) (h : a + ws.length ≤ 32768) :
    (m.placeWords a ws).wordsFrom a ws.length = ws := by
  induction ws generalizing m a with
  | nil => rfl
  | cons w rest ih =>
    rw [List.length_cons] at h
    have hlt : a < 32768 := by omega
    rw [Memory.placeWords, Config.memWords, if_pos hlt, List.length_cons, Memory.wordsFrom_of_lt _ _ _ hlt,
      Memory.readCell_placeWords_of_lt rest _ (Nat.lt_succ_self a), Memory.readCell_writeCell_self, ih _ _ (by omega)]

theorem codeWords_withFetchWord {s : State} (nbits w : Nat) (h : s.pc.toNat + 4 ≤ 32768) :
    (s.withFetchWord nbits w).codeWords = tableWords nbits w :=
  Memory.wordsFrom_placeWords (tableWords nbits w) s.mem s.pc.toNat h

theorem decode_of_decodeTableWord {nbits w : Nat} {i : Instr} (h : decodeTableWord nbits w = some i) :
    ∃ rest, decode (tableWords nbits w) = .ok (i, rest) := by
  rw [decodeTableWord, decodeBytes, wordsOfBytes_bytesOfWords] at h
  split at h
  · rename_i j rest hdec
    cases h
    exact ⟨rest, hdec⟩
  · cases h

/-- Settles O12: the words at the pc are the table word's, which the bytes of an image carry without loss. -/
theorem placedInstructionRuns : Obligations.PlacedInstructionRuns := by
  intro s nbits w i hpc hdec
  obtain ⟨rest, hrest⟩ := decode_of_decodeTableWord hdec
  rw [← codeWords_withFetchWord nbits w hpc] at hrest
  exact stepRunsDecodedInstruction _ i rest rfl hrest

end Sys2Proof.Machine
end

section
/-! jt and jf (43_jumps.md R131, R132), mod (44_alu.md R142), call and ret (46_call_ret.md R170, R171). -/

namespace Sys2Proof.Machine

open Sys2Proof.Claims

/-! ### jt and jf -/

theorem isNonZero_eq_decide (v : Value) : isNonZero v = decide (v.toNat ≠ 0) := by
  rw [isNonZero]
  exact decide_eq_decide.mpr (not_congr BitVec.toNat_inj.symm)

/-- The shape of jt and jf: Resolve the condition, jump where it meets `taken`, and pass otherwise. -/
theorem condJumpRule_of_exec {mk : Operand → Operand → Instr} {taken : Value → Prop} (test : Value → Bool)
    (hexec : ∀ a b s, exec (mk a b) s =
      finish ((resolve a (s.past 3)).andThen fun va s => if test va then jumpTo b s else .ok () s))
    (htest : ∀ va, test va = true ↔ taken va) : CondJumpRule mk taken := by
  have hresolved {s : State} {a : Operand} (b : Operand) {va : Value} (ha : s.valueOf a = some va) :
      exec (mk a b) s = finish (if test va then jumpTo b (s.past 3) else .ok () (s.past 3)) := by
    rw [hexec, resolve_past_of_valueOf 3 ha, Res.andThen_ok]
  refine ⟨fun s a b va vb t ha htaken hb ht => ?_, fun s a b va ha htaken => ?_, fun s b w => ?_,
    fun s a va w ha htaken => ?_⟩
  · rw [hresolved b ha, if_pos ((htest va).mpr htaken), jumpTo_of_valueOf hb (s.past_regs 3), State.jump_past, finish_ok,
      eq_widen ht]
    rfl
  · rw [hresolved b ha, if_neg (mt (htest va).mp htaken), finish_ok]
    rfl
  · rw [hexec, resolve, Res.andThen_ended, finish_ended, raise_past]
    rfl
  · rw [hresolved _ ha, if_pos ((htest va).mpr htaken), jumpTo_invalid, finish_ended, raise_past]
    rfl

/-- Settles O24: jt takes the branch where its condition is not 0. -/
theorem jtRule : Obligations.JtRule :=
  condJumpRule_of_exec isNonZero (fun _ _ _ => rfl) fun va => by rw [isNonZero_eq_decide, decide_eq_true_iff]

/-- Settles O25: jf passes where its condition is not 0, so its branch is that of jt with the test turned round. -/
theorem jfRule : Obligations.JfRule := by
  refine condJumpRule_of_exec (fun va => !isNonZero va) (fun a b s => ?_) fun va => ?_
  · rw [exec, execJf]
    congr 2
    funext va s
    cases isNonZero va <;> rfl
  · rw [isNonZero_eq_decide, Bool.not_eq_true', decide_eq_false_iff_not, not_ne_iff]

/-! ### mod -/

/-- With a value for both sources, mod is the check of the divisor and then the Store. -/
theorem exec_mod_of_valueOf (a : Operand) {s : State} {b c : Operand} {vb vc : Value} (hb : s.valueOf b = some vb)
    (hc : s.valueOf c = some vc) :
    exec (.mod a b c) s = finish (if vc = 0 then .ended (raise .divideByZero 0 (s.past 4))
      else store a (widen (remainder vb vc)) (s.past 4)) := by
  rw [exec, execMod, resolve_past_of_valueOf 4 hb, Res.andThen_ok, resolve_past_of_valueOf 4 hc, Res.andThen_ok]

/-- A divisor that is not 0 leaves one remainder below it. -/
theorem eq_remainder {vb vc v : Value} {q : Nat} (h : vb.toNat = q * vc.toNat + v.toNat) (hlt : v.toNat < vc.toNat) :
    v = remainder vb vc := by
  apply BitVec.eq_of_toNat_eq
  rw [remainder, h, Nat.mul_add_mod', Nat.mod_eq_of_lt hlt, BitVec.ofNat_toNat, BitVec.setWidth_eq]

/-- Settles O28: the divisor is checked between the sources and the destination. -/
theorem modRule : Obligations.ModRule := by
  refine ⟨fun s r b c vb vc v q hb hc hdiv hlt => ?_, fun s a c w => ?_, fun s a b vb w hb => ?_,
    fun s a b c vb hb hc => ?_, fun s a b c vb vc hb hc hne ha => ?_⟩
  · have hne : vc ≠ 0 := by rintro rfl; exact absurd hlt (Nat.not_lt_zero _)
    rw [exec_mod_of_valueOf _ hb hc, if_neg hne, ← eq_remainder hdiv hlt, store_widen]
    rfl
  · rw [exec, execMod, resolve, Res.andThen_ended, finish_ended, raise_past]
    rfl
  · rw [exec, execMod, resolve_past_of_valueOf 4 hb, Res.andThen_ok, resolve, Res.andThen_ended, finish_ended, raise_past]
    rfl
  · rw [exec_mod_of_valueOf a hb hc, if_pos rfl, finish_ended, raise_past]
    rfl
  · have hne : vc ≠ 0 := by rintro rfl; exact hne rfl
    rw [exec_mod_of_valueOf a hb hc, if_neg hne, store_widen_of_not_reg ha, finish_ended, raise_past]
    rfl

/-! ### call and ret -/

/-- On the unbounded stack the target is resolved in the state with the return address pushed. -/
theorem exec_call (a : Operand) (s : State) :
    exec (.call a) s = finish (jumpTo a (State.past { s with stack := s.stack ++ [s.pc + 2] } 2)) := by
  rw [exec, execCall, callWithDepth, Config.stackDepth, push_none, Res.andThen_ok]
  rfl

theorem exec_call_of_valueOf {s : State} {a : Operand} {v : Value} (h : s.valueOf a = some v) :
    exec (.call a) s = .next { s with pc := widen v, stack := s.stack ++ [s.pc + 2] } := by
  rw [exec_call, jumpTo_of_valueOf (u := State.past { s with stack := s.stack ++ [s.pc + 2] } 2) h rfl]
  rfl

/-- Settles O34: only the target's class is left open once the return address is pushed. -/
theorem callRule : Obligations.CallRule := by
  refine ⟨fun s a va t ha ht => ?_, fun s w => ?_, fun s a => ?_⟩
  · rw [exec_call_of_valueOf ha, eq_widen ht]
  · rw [exec_call, jumpTo_invalid, finish_ended, raise_past]
    rfl
  · have hfull : push (some s.stack.length) (s.past 2).pc (s.past 2) = .ended (raise .stackOverflow 0 (s.past 2)) :=
      push_full _ (s.past 2)
    rw [callWithDepth, hfull, Res.andThen_ended, raise_past]
    rfl

theorem exec_ret_of_append {s : State} {below : List Word} {t : Word} (h : s.stack = below ++ [t]) :
    exec .ret s = .next { s with pc := t, stack := below } := by
  have hne : s.stack ≠ [] := h ▸ List.concat_ne_nil t below
  rw [exec, execRet, if_neg hne, pop_append (s.past 1) below t h]
  rfl

/-- Settles O35: the stack decides between the return and the halt. -/
theorem retRule : Obligations.RetRule := by
  refine ⟨fun s below t h => exec_ret_of_append h, fun s h => ?_⟩
  rw [exec, execRet, if_pos h]
  rfl

/-- Settles O50: ret takes off the return address that call has put on the stack. -/
theorem callThenRetReturns : Obligations.CallThenRetReturns :=
  fun _ _ _ ha => ⟨_, exec_call_of_valueOf ha, exec_ret_of_append rfl⟩

end Sys2Proof.Machine
end

section
/-! out and in (47_out_in.md R180 to R187). -/

namespace Sys2Proof.Machine

/-! ### out -/

/-- Settles O36: the operand's value is sent whole, and nothing is sent before it is resolved. -/
theorem outRule : Obligations.OutRule := by
  refine ⟨fun s a va ha => ?_, fun s w => ?_⟩
  · rw [exec, execOut, resolve_past_of_valueOf 2 ha, Res.andThen_ok, finish_ok]
    rfl
  · rw [exec, execOut, resolve, Res.andThen_ended, finish_ended, raise_past]
    rfl

/-! ### in by the answer of the transceiver -/

theorem takeChar_past_of_pending {s : State} {n : Nat} {c : Value} {rest : List Value} (h : s.pending = c :: rest) :
    takeChar (s.past n) = .ok (some c) (State.past { s with pending := rest } n) :=
  takeChar_pending (s.past n) c rest h

theorem takeChar_past_of_line {s : State} {n : Nat} {c : Value} {l rest : List Value} {later : List HostAnswer}
    (h : s.pending = []) (hi : s.inPort = .line l :: later) (hl : l ++ [lineTerminator] = c :: rest) :
    takeChar (s.past n) = .ok (some c) (State.past { s with pending := rest, inPort := later } n) :=
  takeChar_line (s.past n) c l rest later h hi hl

theorem exec_in_of_takeChar_some (a : Operand) {s u : State} {c : Value} (h : takeChar (s.past 2) = .ok (some c) u) :
    exec (.in_ a) s = finish (store a (widen c) u) := by
  simp only [exec, execIn, h]

theorem exec_in_of_takeChar_none (a : Operand) {s u : State} (h : takeChar (s.past 2) = .ok none u) :
    exec (.in_ a) s = .next { u with pc := s.pc } := by
  simp only [exec, execIn, h]

theorem exec_in_of_takeChar_ended (a : Operand) {s u : State} (h : takeChar (s.past 2) = .ended u) :
    exec (.in_ a) s = .next u := by
  simp only [exec, execIn, h]

/-- A code that was taken goes to a register destination; at any other the fault finds it gone. -/
theorem exec_in_reg (r : Fin 8) {s u : State} {c : Value} (h : takeChar (s.past 2) = .ok (some c) (u.past 2)) :
    exec (.in_ (.reg r)) s = .next { u with pc := u.pc + 2, regs := u.regs.set r c } := by
  rw [exec_in_of_takeChar_some _ h, store_widen]
  rfl

theorem exec_in_of_not_reg {a : Operand} {s u : State} {c : Value} (ha : a.isReg = false)
    (h : takeChar (s.past 2) = .ok (some c) (u.past 2)) :
    exec (.in_ a) s = .next (u.faultAt 2 .invalidRegister a.word) := by
  rw [exec_in_of_takeChar_some _ h, store_widen_of_not_reg ha, finish_ended, raise_past]
  rfl

/-- Settles O37: the buffer and the host's answer decide what the transceiver gives, and the destination comes after it. -/
theorem inRule : Obligations.InRule := by
  refine ⟨fun s r c rest hp => ?_, fun s r c l rest later hp hi hl => ?_, fun s a c rest hp ha => ?_,
    fun s a c l rest later hp hi hl ha => ?_, fun s a later hp hi => ?_⟩
  · exact exec_in_reg r (takeChar_past_of_pending hp)
  · exact exec_in_reg r (takeChar_past_of_line hp hi hl)
  · exact exec_in_of_not_reg ha (takeChar_past_of_pending hp)
  · exact exec_in_of_not_reg ha (takeChar_past_of_line hp hi hl)
  · have hclosed : takeChar (s.past 2) = .ended (raise .inputExhausted 0 (s.past 2)) := by
      simp only [takeChar, State.past_pending, hp, State.past_inPort, hi]
    rw [exec_in_of_takeChar_ended a hclosed, raise_past]
    rfl

/-- Settles O38: without an answer the pc goes back to the opcode word. -/
theorem inWaitsForTheHost : Obligations.InWaitsForTheHost := by
  refine ⟨fun s a hp hi => ?_, fun s a later hp hi => ?_⟩
  · have hnone : takeChar (s.past 2) = .ok none (s.past 2) := by
      simp only [takeChar, State.past_pending, hp, State.past_inPort, hi]
    rw [exec_in_of_takeChar_none a hnone]
    rfl
  · have hnone : takeChar (s.past 2) = .ok none { s.past 2 with inPort := later } := by
      simp only [takeChar, State.past_pending, hp, State.past_inPort, hi]
    rw [exec_in_of_takeChar_none a hnone]
    rfl

end Sys2Proof.Machine
end

section
/-! What every instruction leaves unchanged, field by field (10_state.md): each law reads one field off the effects of
Laws/Exec.lean, and the frame statements follow from the laws. -/

namespace Sys2Proof.Machine

/-! ### The fields a character's arrival leaves -/

variable {s t : State}

/-- Only the buffer and the host's answers can differ after it. -/
theorem exists_of_takeChar {c : Option Value} (h : takeChar s = .ok c t) :
    ∃ pending inPort, t = { s with pending := pending, inPort := inPort } :=
  ⟨_, _, takeChar_frame h⟩

/-- The host is asked only when the buffer is empty (47_out_in.md R184). -/
theorem takeChar_inPort_of_pending {c : Option Value} (h : takeChar s = .ok c t) (hp : s.pending ≠ []) :
    t.inPort = s.inPort := by
  cases c with
  | none => exact absurd (takeChar_eq_none h).1 hp
  | some c =>
    rcases takeChar_eq_some h with ⟨rest, -, rfl⟩ | ⟨hempty, -⟩
    · rfl
    · exact absurd hempty hp

/-! ### One law for each field -/

variable {i : Instr}

/-- Registers: at most the one the destination names (10_state.md R21). -/
theorem Effect.regs_cases (h : Effect s i t) :
    t.regs = s.regs ∨ ∃ r v, i.destination = some (.reg r) ∧ t.regs = s.regs.set r v := by
  cases h with
  | wrote i r v hd => exact .inr ⟨r, v, hd, rfl⟩
  | popped r below e v => exact .inr ⟨r, v, rfl, rfl⟩
  | received r c u hu =>
    obtain ⟨p, q, rfl⟩ := exists_of_takeChar hu
    exact .inr ⟨r, c, rfl, rfl⟩
  | receivedFault a c u hu =>
    obtain ⟨p, q, rfl⟩ := exists_of_takeChar hu
    exact .inl rfl
  | waited a u hu =>
    obtain ⟨p, q, rfl⟩ := exists_of_takeChar hu
    exact .inl rfl
  | fault | pushed | popFault | jumped | passed | stored | called | callFault | returned | halted | sent => exact .inl rfl

/-- Memory: at most one cell, to a value, by wmem (45_rmem_wmem.md R161). -/
theorem Effect.mem_cases (h : Effect s i t) :
    t.mem = s.mem ∨ ∃ a b addr v, i = .wmem a b ∧ s.valueOf a = some addr ∧
      t.mem = s.mem.writeCell addr.toNat (widen v) := by
  cases h with
  | stored a b addr v ha => exact .inr ⟨a, b, addr, v, rfl, ha, rfl⟩
  | received a c u hu | receivedFault a c u hu =>
    obtain ⟨p, q, rfl⟩ := exists_of_takeChar hu
    exact .inl rfl
  | waited a u hu =>
    obtain ⟨p, q, rfl⟩ := exists_of_takeChar hu
    exact .inl rfl
  | fault | wrote | pushed | popped | popFault | jumped | passed | called | callFault | returned | halted | sent =>
    exact .inl rfl

/-- The stack: one entry more by push or call, one less by pop or ret (10_state.md R26, R27). -/
theorem Effect.stack_cases (h : Effect s i t) :
    t.stack = s.stack ∨
    (∃ a v, i = .push a ∧ t.stack = s.stack ++ [widen v]) ∨
    (∃ a, i = .call a ∧ t.stack = s.stack ++ [s.pc + 2]) ∨
    (∃ e, (i = .ret ∨ ∃ a, i = .pop a) ∧ s.stack = t.stack ++ [e]) := by
  cases h with
  | pushed a v => exact .inr (.inl ⟨a, v, rfl, rfl⟩)
  | called a v => exact .inr (.inr (.inl ⟨a, rfl, rfl⟩))
  | callFault w => exact .inr (.inr (.inl ⟨_, rfl, rfl⟩))
  | popped r below e v hs => exact .inr (.inr (.inr ⟨e, .inr ⟨_, rfl⟩, hs⟩))
  | popFault a below e cause info hs => exact .inr (.inr (.inr ⟨e, .inr ⟨_, rfl⟩, hs⟩))
  | returned below e hs => exact .inr (.inr (.inr ⟨e, .inl rfl, hs⟩))
  | received a c u hu | receivedFault a c u hu =>
    obtain ⟨p, q, rfl⟩ := exists_of_takeChar hu
    exact .inl rfl
  | waited a u hu =>
    obtain ⟨p, q, rfl⟩ := exists_of_takeChar hu
    exact .inl rfl
  | fault | wrote | jumped | passed | stored | halted | sent => exact .inl rfl

/-- The transceiver: as before, or as in left it (47_out_in.md R184). -/
theorem Effect.transceiver_cases (h : Effect s i t) :
    (t.pending = s.pending ∧ t.inPort = s.inPort) ∨
    ∃ a c u, i = .in_ a ∧ takeChar (s.past 2) = .ok c u ∧ t.inPort = u.inPort := by
  cases h with
  | received r c u hu => exact .inr ⟨_, _, u, rfl, hu, rfl⟩
  | receivedFault a c u hu => exact .inr ⟨a, _, u, rfl, hu, rfl⟩
  | waited a u hu => exact .inr ⟨a, _, u, rfl, hu, rfl⟩
  | fault | wrote | pushed | popped | popFault | jumped | passed | stored | called | callFault | returned | halted | sent =>
    exact .inl ⟨rfl, rfl⟩

/-- The OUT stream: at most one event more, by out (47_out_in.md R180). -/
theorem Effect.outStream_cases (h : Effect s i t) :
    t.outStream = s.outStream ∨ ∃ a v, i = .out a ∧ s.valueOf a = some v ∧ t.outStream = s.outStream ++ [v] := by
  cases h with
  | sent a v ha => exact .inr ⟨a, v, rfl, ha, rfl⟩
  | received a c u hu | receivedFault a c u hu =>
    obtain ⟨p, q, rfl⟩ := exists_of_takeChar hu
    exact .inl rfl
  | waited a u hu =>
    obtain ⟨p, q, rfl⟩ := exists_of_takeChar hu
    exact .inl rfl
  | fault | wrote | pushed | popped | popFault | jumped | passed | stored | called | callFault | returned | halted =>
    exact .inl rfl

/-- The pc: past the instruction's words, unless a jump or call assigns it a value, ret the top entry, or in waits
(10_state.md R22). -/
theorem Effect.pc_cases (h : Effect s i t) :
    t.pc = s.pc + BitVec.ofNat 16 i.length ∨
    (∃ v, ((∃ a, i = .jmp a) ∨ (∃ a b, i = .jt a b) ∨ (∃ a b, i = .jf a b) ∨ ∃ a, i = .call a) ∧ t.pc = widen v) ∨
    (∃ below, i = .ret ∧ s.stack = below ++ [t.pc]) ∨
    (∃ a, i = .in_ a ∧ t.pc = s.pc) := by
  cases h with
  | jumped i v hj =>
    rcases hj with hjmp | hjt | hjf
    · exact .inr (.inl ⟨v, .inl hjmp, rfl⟩)
    · exact .inr (.inl ⟨v, .inr (.inl hjt), rfl⟩)
    · exact .inr (.inl ⟨v, .inr (.inr (.inl hjf)), rfl⟩)
  | called a v => exact .inr (.inl ⟨v, .inr (.inr (.inr ⟨a, rfl⟩)), rfl⟩)
  | returned below e hs => exact .inr (.inr (.inl ⟨below, rfl, hs⟩))
  | waited a u => exact .inr (.inr (.inr ⟨a, rfl, rfl⟩))
  | halted i hi => rcases hi with rfl | ⟨rfl, -⟩ <;> exact .inl rfl
  | received a c u hu | receivedFault a c u hu =>
    obtain ⟨p, q, rfl⟩ := exists_of_takeChar hu
    exact .inl rfl
  | fault | wrote | pushed | popped | popFault | passed | stored | callFault | sent => exact .inl rfl

/-- Status and dumps: neither changes, or the run ends with one dump of the final pc and registers, Halted only by halt or
ret (10_state.md R35, 60_exceptions.md R212, R213). -/
theorem Effect.end_cases (h : Effect s i t) :
    (t.status = s.status ∧ t.diagStream = s.diagStream) ∨
    (t.diagStream = s.diagStream ++ [⟨t.pc, t.regs⟩] ∧
      ((t.status = .halted ∧ (i = .halt ∨ (i = .ret ∧ s.stack = []))) ∨
       ∃ cause info, t.status = .faulted cause info ∧ cause ≠ .loadError ∧ cause ≠ .stackOverflow)) := by
  cases h with
  | halted i hi => exact .inr ⟨rfl, .inl ⟨rfl, hi⟩⟩
  | fault i cause info hload hoverflow => exact .inr ⟨rfl, .inr ⟨_, _, rfl, hload, hoverflow⟩⟩
  | popFault a below e cause info hs hcause =>
    refine .inr ⟨rfl, .inr ⟨_, _, rfl, ?_⟩⟩
    rcases hcause with rfl | rfl <;> exact ⟨nofun, nofun⟩
  | callFault w => exact .inr ⟨rfl, .inr ⟨_, _, rfl, nofun, nofun⟩⟩
  | receivedFault a c u hu =>
    obtain ⟨p, q, rfl⟩ := exists_of_takeChar hu
    exact .inr ⟨rfl, .inr ⟨_, _, rfl, nofun, nofun⟩⟩
  | received r c u hu =>
    obtain ⟨p, q, rfl⟩ := exists_of_takeChar hu
    exact .inl ⟨rfl, rfl⟩
  | waited a u hu =>
    obtain ⟨p, q, rfl⟩ := exists_of_takeChar hu
    exact .inl ⟨rfl, rfl⟩
  | wrote | pushed | popped | jumped | passed | stored | called | returned | sent => exact .inl ⟨rfl, rfl⟩

end Sys2Proof.Machine
end

section
/-! The frame statements (10_state.md sections 1, 2, 4, 8; 20_memory.md; 47_out_in.md; 60_exceptions.md section 2). -/

namespace Sys2Proof.Machine

/-! ### Registers and memory -/

/-- Settles O39: a register other than the destination's reads as before the write. -/
theorem onlyTheDestinationRegisterChanges : Obligations.OnlyTheDestinationRegisterChanges := by
  intro i s t q h hdest
  rcases (effect_of_exec h).regs_cases with hregs | ⟨r, v, hr, hregs⟩
  · rw [State.getReg, hregs, State.getReg]
  · have hne : q ≠ r := by rintro rfl; exact hdest hr
    rw [State.getReg, hregs]
    exact State.getReg_setReg_ne s r q v hne

/-- Settles O40: every other instruction leaves the whole memory as it is. -/
theorem onlyWmemChangesMemory : Obligations.OnlyWmemChangesMemory := by
  intro i s t h hwmem x
  rcases (effect_of_exec h).mem_cases with hmem | ⟨a, b, addr, v, hi, -⟩
  · rw [hmem]
  · exact absurd hi (hwmem a b)

/-- Settles O41: the cell written is the one at the address operand's value, so without a value none is. -/
theorem wmemChangesOneCell : Obligations.WmemChangesOneCell := by
  intro s t a b h
  rcases (effect_of_exec h).mem_cases with hmem | ⟨a, b, addr, v, hi, ha, hmem⟩
  · rw [hmem]
    exact ⟨fun _ _ _ _ _ => rfl, fun _ _ => rfl⟩
  · cases hi
    rw [hmem]
    refine ⟨fun addr' ha' x hlow hhigh => ?_, fun hnone => ?_⟩
    · obtain rfl : addr = addr' := Option.some.inj (ha.symm.trans ha')
      rw [Memory.readByte_writeCell, if_neg hlow, if_neg hhigh]
    · rw [hnone] at ha
      cases ha

/-- Settles O48: the only cell that can change holds the value wmem wrote, and a value is below 32768. -/
theorem changedCellsHoldValues : Obligations.ChangedCellsHoldValues := by
  intro i s t x h hchanged
  rcases (effect_of_exec h).mem_cases with hmem | ⟨a, b, addr, v, -, -, hmem⟩
  · exact absurd (congrArg (Memory.readCell · x) hmem) hchanged
  · rw [hmem] at hchanged ⊢
    have hx : x = addr.toNat := Classical.byContradiction fun hne =>
      hchanged (Memory.readCell_writeCell_ne s.mem addr.toNat x (widen v) hne)
    rw [hx, Memory.readCell_writeCell_self, widen_toNat]
    exact Nat.le_of_lt_succ v.isLt

/-- Settles O49: the cell written is the one the pc has moved to. -/
theorem nextFetchSeesTheStore : Obligations.NextFetchSeesTheStore := by
  intro s a b addr v ha hb hpc
  refine ⟨_, exec_wmem_of_valueOf ha hb, ?_⟩
  have haddr := addr.isLt
  have hnext : (s.pc + 3).toNat = addr.toNat := (past_toNat s 3 (by omega)).trans hpc
  rw [State.codeWords, hnext, Memory.wordsFrom_of_lt _ _ _ haddr, Memory.readCell_writeCell_self]
  rfl

/-! ### Stack, ports and pc -/

/-- Settles O42: each of the three ways to change the stack belongs to one of the four instructions. -/
theorem onlyStackInstructionsChangeTheStack : Obligations.OnlyStackInstructionsChangeTheStack := by
  intro i s t h hpush hpop hcall hret
  rcases (effect_of_exec h).stack_cases with hstack | ⟨a, v, hi, -⟩ | ⟨a, hi, -⟩ | ⟨e, hi | ⟨a, hi⟩, -⟩
  · exact hstack
  · exact absurd hi (hpush a)
  · exact absurd hi (hcall a)
  · exact absurd hi hret
  · exact absurd hi (hpop a)

/-- Settles O43: in alone asks the transceiver, which asks the host only with an empty buffer. -/
theorem onlyInUsesTheTransceiver : Obligations.OnlyInUsesTheTransceiver := by
  refine ⟨fun i s t h hin => ?_, fun a s t h hp => ?_⟩
  · rcases (effect_of_exec h).transceiver_cases with hsame | ⟨a, c, u, hi, -⟩
    · exact hsame
    · exact absurd hi (hin a)
  · rcases (effect_of_exec h).transceiver_cases with ⟨-, hsame⟩ | ⟨a, c, u, -, hu, hport⟩
    · exact hsame
    · rw [hport, takeChar_inPort_of_pending hu hp, State.past_inPort]

/-- Settles O44: this is the law of the OUT stream. -/
theorem outputGrowsByOutAlone : Obligations.OutputGrowsByOutAlone :=
  fun _ _ _ h => (effect_of_exec h).outStream_cases

/-- Settles O45: every other way to leave the pc belongs to a jump, call, ret or in. -/
theorem onlyJumpsAssignThePc : Obligations.OnlyJumpsAssignThePc := by
  intro i s t h hjmp hjt hjf hcall hret hin
  rcases (effect_of_exec h).pc_cases with
    hpc | ⟨v, ⟨a, hi⟩ | ⟨a, b, hi⟩ | ⟨a, b, hi⟩ | ⟨a, hi⟩, -⟩ | ⟨below, hi, -⟩ | ⟨a, hi, -⟩
  · exact hpc
  · exact absurd hi (hjmp a)
  · exact absurd hi (hjt a b)
  · exact absurd hi (hjf a b)
  · exact absurd hi (hcall a)
  · exact absurd hi hret
  · exact absurd hi (hin a)

/-! ### The end of a run -/

/-- Settles O46: this is the law of status and dumps, from a running state. -/
theorem runEndsWithOneDump : Obligations.RunEndsWithOneDump := by
  intro i s t hrun h
  have hend := (effect_of_exec h).end_cases
  rwa [hrun] at hend

/-- Settles O47: the other effects that end in a fault belong to pop, call and in, and those without one leave the machine
Running or Halted. -/
theorem faultsArePrecise : Obligations.FaultsArePrecise := by
  intro i s t cause info hrun h hfault hpop hin hcall
  cases effect_of_exec h with
  | fault i cause' info' =>
    cases hfault
    exact raise_past s i.length cause info
  | popFault a => exact absurd rfl (hpop a)
  | callFault w => exact absurd rfl (hcall _)
  | receivedFault a => exact absurd rfl (hin a)
  | received r => exact absurd rfl (hin _)
  | waited a => exact absurd rfl (hin a)
  | halted => cases hfault
  | wrote | pushed | popped | jumped | passed | stored | called | returned | sent => cases hrun.symm.trans hfault

end Sys2Proof.Machine
end

section
/-! Reset with any image (10_state.md R39, 70_reset_and_hazards.md R240 to R244): the fields at fixed values, and the
refusals. -/

namespace Sys2Proof.Machine

/-- Settles O14: a well-formed image gives memory alone, and the reset state holds its fixed values. -/
theorem resetStateAfterLoad : Obligations.ResetStateAfterLoad := by
  refine ⟨fun u image heven hfits => ?_, fun r => ?_, rfl, rfl, rfl, rfl, rfl, rfl, rfl, fun a => rfl⟩
  · rw [State.load_of_wellFormed u heven hfits]
  · simp [State.reset, State.getReg]

/-- The state a refused image leaves (log entry 6). -/
theorem State.load_of_odd (u : State) {image : List Byte} (hodd : image.length % 2 = 1) :
    State.load u image = { u with status := .faulted .loadError 1, outStream := [], diagStream := [] } := by
  rw [State.load, if_pos hodd]

theorem State.load_of_long (u : State) {image : List Byte} (heven : image.length % 2 = 0)
    (hlong : 65536 < image.length) :
    State.load u image = { u with status := .faulted .loadError 2, outStream := [], diagStream := [] } := by
  have hodd : ¬ image.length % 2 = 1 := by omega
  rw [State.load, if_neg hodd, Config.maxImageBytes, if_pos hlong]

/-- Settles O15: a refused image leaves no event and an ended machine, whose step answers its own state. -/
theorem malformedImageIsRefused : Obligations.MalformedImageIsRefused := by
  refine fun u image => ⟨fun hodd => ?_, fun heven hlong => ?_⟩
  · rw [State.load_of_odd u hodd]
    exact ⟨rfl, rfl, rfl, step_of_not_running nofun⟩
  · rw [State.load_of_long u heven hlong]
    exact ⟨rfl, rfl, rfl, step_of_not_running nofun⟩

end Sys2Proof.Machine
end

section
/-! The invariant of a run (10_state.md R35, R41): reset and every load meet it, and every step keeps it. -/

namespace Sys2Proof.Machine

theorem State.inv_iff (s : State) :
    s.inv = true ↔
      s.mem.wf = true ∧ s.pc.toNat ≤ 32768 ∧ (∀ e ∈ s.stack, e.toNat ≤ 32768) ∧ s.dumpedOnce = true := by
  simp only [State.inv, Bool.and_eq_true, decide_eq_true_eq, List.all_eq_true, and_assoc]

/-! ### The dump by the status -/

theorem State.dumpedOnce_of_running {s : State} (h : s.status = .running) :
    s.dumpedOnce = true ↔ s.diagStream = [] := by
  rw [State.dumpedOnce, h, decide_eq_true_iff]

theorem State.dumpedOnce_of_halted {s : State} (h : s.status = .halted) (hd : s.diagStream = [⟨s.pc, s.regs⟩]) :
    s.dumpedOnce = true := by
  rw [State.dumpedOnce, h]
  exact decide_eq_true hd

theorem State.dumpedOnce_of_faulted {s : State} {cause : Fault} {info : Word} (h : s.status = .faulted cause info)
    (hcause : cause ≠ .loadError) (hd : s.diagStream = [⟨s.pc, s.regs⟩]) : s.dumpedOnce = true := by
  rw [State.dumpedOnce, h]
  split
  · contradiction
  · contradiction
  · rename_i heq
    cases heq
    contradiction
  · exact decide_eq_true hd

theorem State.dumpedOnce_of_loadError {s : State} {info : Word} (h : s.status = .faulted .loadError info)
    (hd : s.diagStream = []) : s.dumpedOnce = true := by
  rw [State.dumpedOnce, h]
  exact decide_eq_true hd

/-! ### Reset and load -/

/-- Settles O53: a well-formed image fits memory; a refused one changes nothing of the given state that the invariant
bounds. -/
theorem loadMeetsTheInvariant : Obligations.LoadMeetsTheInvariant := by
  refine ⟨rfl, fun u image hu => ?_⟩
  obtain ⟨hmem, hpc, hstack, -⟩ := u.inv_iff.mp hu
  rw [State.inv_iff]
  rcases Nat.mod_two_eq_zero_or_one image.length with heven | hodd
  · rcases Nat.lt_or_ge 65536 image.length with hlong | hfits
    · rw [State.load_of_long u heven hlong]
      exact ⟨hmem, hpc, hstack, State.dumpedOnce_of_loadError rfl rfl⟩
    · rw [State.load_of_wellFormed u heven hfits]
      exact ⟨Memory.wfFrom_ofBytes image 0 (by omega), Nat.zero_le _, nofun, rfl⟩
  · rw [State.load_of_odd u hodd]
    exact ⟨hmem, hpc, hstack, State.dumpedOnce_of_loadError rfl rfl⟩

/-! ### What an instruction keeps -/

theorem widen_toNat_le (v : Value) : (widen v).toNat ≤ 32768 := by
  have := v.isLt
  rw [widen_toNat]
  omega

section
variable {s t : State} {i : Instr}

theorem Effect.mem_wf (h : Effect s i t) (hmem : s.mem.wf = true) : t.mem.wf = true := by
  rcases h.mem_cases with hsame | ⟨a, b, addr, v, -, -, hstore⟩
  · rwa [hsame]
  · rw [hstore]
    exact Memory.wf_writeCell s.mem addr.toNat _ addr.isLt hmem

/-- The pc stays in bounds, when the instruction lies in memory and the stack holds pcs. -/
theorem Effect.pc_le (h : Effect s i t) (hi : s.pc.toNat + i.length ≤ 32768) (hstack : ∀ e ∈ s.stack, e.toNat ≤ 32768) :
    t.pc.toNat ≤ 32768 := by
  rcases h.pc_cases with hnext | ⟨v, -, hjump⟩ | ⟨below, -, hret⟩ | ⟨a, -, hwait⟩
  · rw [hnext]
    exact (past_toNat s i.length (by omega)).trans_le hi
  · rw [hjump]
    exact widen_toNat_le v
  · exact hstack t.pc (by rw [hret]; exact List.mem_concat_self)
  · rw [hwait]
    omega

/-- Every entry stays in bounds: a pushed value is below 32768, a return address no more than the end of the call. -/
theorem Effect.stack_le (h : Effect s i t) (hi : s.pc.toNat + i.length ≤ 32768)
    (hstack : ∀ e ∈ s.stack, e.toNat ≤ 32768) : ∀ e ∈ t.stack, e.toNat ≤ 32768 := by
  rcases h.stack_cases with hsame | ⟨a, v, -, hpush⟩ | ⟨a, rfl, hcall⟩ | ⟨top, -, hpop⟩
  · rwa [hsame]
  · rw [hpush]
    exact List.forall_mem_append.mpr ⟨hstack, List.forall_mem_singleton.mpr (widen_toNat_le v)⟩
  · have hreturn : (s.pc + 2).toNat ≤ 32768 := (past_toNat s 2 (by omega)).trans_le hi
    rw [hcall]
    exact List.forall_mem_append.mpr ⟨hstack, List.forall_mem_singleton.mpr hreturn⟩
  · rw [hpop] at hstack
    exact (List.forall_mem_append.mp hstack).1

/-- The first dump of a run is its last action. -/
theorem Effect.dumpedOnce (h : Effect s i t) (hrun : s.status = .running) (hdump : s.dumpedOnce = true) :
    t.dumpedOnce = true := by
  have hnone := (State.dumpedOnce_of_running hrun).mp hdump
  rcases h.end_cases with ⟨hstatus, hdiag⟩ | ⟨hdiag, hend⟩
  · rw [State.dumpedOnce_of_running (hstatus.trans hrun), hdiag, hnone]
  · rw [hnone, List.nil_append] at hdiag
    rcases hend with ⟨hhalt, -⟩ | ⟨cause, info, hfault, hcause, -⟩
    · exact State.dumpedOnce_of_halted hhalt hdiag
    · exact State.dumpedOnce_of_faulted hfault hcause hdiag

theorem Effect.inv (h : Effect s i t) (hrun : s.status = .running) (hi : s.pc.toNat + i.length ≤ 32768)
    (hs : s.inv = true) : t.inv = true := by
  obtain ⟨hmem, -, hstack, hdump⟩ := s.inv_iff.mp hs
  exact t.inv_iff.mpr ⟨h.mem_wf hmem, h.pc_le hi hstack, h.stack_le hi hstack, h.dumpedOnce hrun hdump⟩

/-- A fault of the fetch after n words keeps the invariant, when those words lie in memory. -/
theorem inv_raise_past {cause : Fault} (info : Word) (n : Nat) (hcause : cause ≠ .loadError) (hrun : s.status = .running)
    (hn : s.pc.toNat + n ≤ 32768) (hs : s.inv = true) : (raise cause info (s.past n)).inv = true := by
  obtain ⟨hmem, -, hstack, hdump⟩ := s.inv_iff.mp hs
  have hnone := (State.dumpedOnce_of_running hrun).mp hdump
  refine (State.inv_iff _).mpr ⟨hmem, (past_toNat s n (by omega)).trans_le hn, hstack, ?_⟩
  refine State.dumpedOnce_of_faulted rfl hcause ?_
  rw [raise_diagStream, State.past_diagStream, hnone]
  rfl

end

/-- Settles O52: an ended machine stays as it is; a fetch ends the run in memory or at its end; an instruction fetched whole
lies in memory, and its effect keeps each part of the invariant. -/
theorem stepKeepsTheInvariant : Obligations.StepKeepsTheInvariant := by
  intro s t hs h
  by_cases hrun : s.status = .running
  · cases hfetch : fetchInstr s with
    | ok i u =>
      rw [step_of_fetchInstr_ok hrun hfetch] at h
      exact (effect_of_exec h).inv hrun (fetchInstr_eq_ok hfetch).1 hs
    | ended u =>
      rw [step_of_fetchInstr_ended hrun hfetch] at h
      cases h
      obtain ⟨-, hpc, -⟩ := s.inv_iff.mp hs
      rcases fetchInstr_eq_ended hfetch with ⟨op, hlt, rfl⟩ | ⟨n, hn, -, rfl⟩
      · exact inv_raise_past op 1 nofun hrun hlt hs
      · exact inv_raise_past _ n nofun hrun (by omega) hs
  · rw [step_of_not_running hrun] at h
    cases h
    exact hs

end Sys2Proof.Machine
end

section
/-! Isolation from the host (10_state.md R38, 60_exceptions.md R216; log entry 2): an action that does not ask the transceiver
commutes with replacing the host's script. -/

namespace Sys2Proof.Machine

/-! ### Actions that do not read the script -/

/-- The same answer, its state with another script. -/
def Res.withAnswers {α : Type} (answers : List HostAnswer) : Res α → Res α
  | .ok v s => .ok v { s with inPort := answers }
  | .ended s => .ended { s with inPort := answers }

/-- Replacing the script before the action or after it is the same. -/
def IgnoresHost {α : Type} (k : State → Res α) : Prop :=
  ∀ (s : State) (answers : List HostAnswer), k { s with inPort := answers } = (k s).withAnswers answers

theorem Res.withAnswers_andThen {α β : Type} {k : α → State → Res β} (hk : ∀ v, IgnoresHost (k v)) (r : Res α)
    (answers : List HostAnswer) : (r.withAnswers answers).andThen k = (r.andThen k).withAnswers answers := by
  cases r with
  | ok v u => exact hk v u answers
  | ended u => rfl

theorem IgnoresHost.andThen {α β : Type} {r : State → Res α} {k : α → State → Res β} (hr : IgnoresHost r)
    (hk : ∀ v, IgnoresHost (k v)) : IgnoresHost fun s => (r s).andThen k :=
  fun s answers => (congrArg (Res.andThen · k) (hr s answers)).trans (Res.withAnswers_andThen hk (r s) answers)

theorem IgnoresHost.past {α : Type} {k : State → Res α} (hk : IgnoresHost k) (n : Nat) : IgnoresHost fun s => k (s.past n) :=
  fun s => hk (s.past n)

/-- The state an instruction leaves differs in the script alone, when its whole action ignores the host. -/
theorem IgnoresHost.finish {k : State → Res Unit} (hk : IgnoresHost k) {s t : State} (answers : List HostAnswer)
    (h : Machine.finish (k s) = .next t) :
    Machine.finish (k { s with inPort := answers }) = .next { t with inPort := answers } := by
  rw [hk s answers]
  rcases finish_eq_next h with hok | hended
  · rw [hok]
    rfl
  · rw [hended]
    rfl

/-! ### The primitives -/

theorem ignoresHost_resolve (o : Operand) : IgnoresHost (resolve o) := by
  intro s answers
  cases o <;> rfl

theorem ignoresHost_store (a : Operand) (w : Word) : IgnoresHost (store a w) := by
  refine (ignoresHost_resolve _).andThen fun v s answers => ?_
  cases a <;> rfl

theorem ignoresHost_binary (f : Value → Value → Value) (a b c : Operand) : IgnoresHost (binary f a b c) :=
  (ignoresHost_resolve b).andThen fun _ => (ignoresHost_resolve c).andThen fun _ => ignoresHost_store a _

theorem ignoresHost_jumpTo (o : Operand) : IgnoresHost (jumpTo o) :=
  (ignoresHost_resolve o).andThen fun _ _ _ => rfl

theorem ignoresHost_push (depth : Option Nat) (v : Word) : IgnoresHost (push depth v) := by
  intro s answers
  unfold push
  split <;> rfl

theorem ignoresHost_pop : IgnoresHost pop := by
  intro s answers
  cases h : s.stack.getLast? <;> simp only [pop, h] <;> rfl

/-! ### The instructions -/

/-- ret as an action: the halt on the empty stack ends the run. -/
def retAction (s : State) : Res Unit :=
  if s.stack = [] then .ended (haltMachine (s.past 1)) else (pop (s.past 1)).andThen fun t s => .ok () (s.jump t)

theorem exec_ret_eq_finish (s : State) : exec .ret s = finish (retAction s) := by
  rw [exec, execRet, retAction, apply_ite finish, finish_ended]

theorem ignoresHost_retAction : IgnoresHost retAction := by
  intro s answers
  unfold retAction
  split
  · rfl
  · exact (ignoresHost_pop.andThen fun _ _ _ => rfl).past 1 s answers

/-- An instruction other than in, as the action whose end is its next state. -/
theorem exists_ignoresHost_action (i : Instr) (hin : ∀ a, i ≠ .in_ a) :
    ∃ k : State → Res Unit, IgnoresHost k ∧ ∀ s, exec i s = finish (k s) := by
  cases i with
  | halt => exact ⟨fun s => .ended (haltMachine (s.past 1)), fun _ _ => rfl, fun _ => rfl⟩
  | noop => exact ⟨fun s => .ok () (s.past 1), fun _ _ => rfl, fun _ => rfl⟩
  | eq a b c => exact ⟨_, (ignoresHost_binary _ a b c).past 4, fun _ => rfl⟩
  | gt a b c => exact ⟨_, (ignoresHost_binary _ a b c).past 4, fun _ => rfl⟩
  | add a b c => exact ⟨_, (ignoresHost_binary _ a b c).past 4, fun _ => rfl⟩
  | mul a b c => exact ⟨_, (ignoresHost_binary _ a b c).past 4, fun _ => rfl⟩
  | and a b c => exact ⟨_, (ignoresHost_binary _ a b c).past 4, fun _ => rfl⟩
  | or a b c => exact ⟨_, (ignoresHost_binary _ a b c).past 4, fun _ => rfl⟩
  | mod a b c =>
    refine ⟨_, ((ignoresHost_resolve b).andThen fun vb => (ignoresHost_resolve c).andThen fun vc s answers => ?_).past 4,
      fun _ => rfl⟩
    split
    · rfl
    · exact ignoresHost_store a _ s answers
  | set a b => exact ⟨_, ((ignoresHost_resolve b).andThen fun _ => ignoresHost_store a _).past 3, fun _ => rfl⟩
  | not a b => exact ⟨_, ((ignoresHost_resolve b).andThen fun _ => ignoresHost_store a _).past 3, fun _ => rfl⟩
  | rmem a b =>
    exact ⟨_, ((ignoresHost_resolve b).andThen fun addr s => ignoresHost_store a (s.mem.readCell addr.toNat) s).past 3,
      fun _ => rfl⟩
  | wmem a b =>
    exact ⟨_, ((ignoresHost_resolve a).andThen fun _ => (ignoresHost_resolve b).andThen fun _ _ _ => rfl).past 3,
      fun _ => rfl⟩
  | push a => exact ⟨_, ((ignoresHost_resolve a).andThen fun _ => ignoresHost_push _ _).past 2, fun _ => rfl⟩
  | pop a => exact ⟨_, (ignoresHost_pop.andThen fun e => ignoresHost_store a e).past 2, fun _ => rfl⟩
  | jmp a => exact ⟨_, (ignoresHost_jumpTo a).past 2, fun _ => rfl⟩
  | jt a b =>
    refine ⟨_, ((ignoresHost_resolve a).andThen fun va s answers => ?_).past 3, fun _ => rfl⟩
    split
    · exact ignoresHost_jumpTo b s answers
    · rfl
  | jf a b =>
    refine ⟨_, ((ignoresHost_resolve a).andThen fun va s answers => ?_).past 3, fun _ => rfl⟩
    split
    · rfl
    · exact ignoresHost_jumpTo b s answers
  | call a =>
    exact ⟨_, IgnoresHost.andThen (fun s => ignoresHost_push _ (s.past 2).pc (s.past 2)) fun _ => ignoresHost_jumpTo a,
      fun _ => rfl⟩
  | ret => exact ⟨retAction, ignoresHost_retAction, exec_ret_eq_finish⟩
  | out a => exact ⟨_, ((ignoresHost_resolve a).andThen fun _ _ _ => rfl).past 2, fun _ => rfl⟩
  | in_ a => exact absurd rfl (hin a)

/-- Settles O51: every instruction but in is an action that ignores the host, and in takes a code of the buffer without
asking. -/
theorem hostAnswersReachOnlyAnAskingIn : Obligations.HostAnswersReachOnlyAnAskingIn := by
  intro i s t answers hasking h
  by_cases hin : ∃ a, i = .in_ a
  · obtain ⟨a, rfl⟩ := hin
    obtain ⟨c, rest, hp⟩ := List.exists_cons_of_ne_nil (hasking a rfl)
    have hp' : State.pending { s with inPort := answers } = c :: rest := hp
    rw [exec_in_of_takeChar_some a (takeChar_past_of_pending hp)] at h
    rw [exec_in_of_takeChar_some a (takeChar_past_of_pending hp')]
    exact (ignoresHost_store a (widen c)).finish answers h
  · obtain ⟨k, hk, hexec⟩ := exists_ignoresHost_action i fun a ha => hin ⟨a, ha⟩
    rw [hexec] at h ⊢
    exact hk.finish answers h

end Sys2Proof.Machine
end
